-- ==== Sys2Proof/Word.lean ====
section
/-! DEFINITION. The two word types of the machine: every datum is a byte (`10_state.md` R10), every address and the
program counter are 16 bits (`10_state.md` R12, `20_memory.md` R30). -/

namespace Sys2Proof

/-- A datum: A, X, Y, a stack entry, a byte of memory, an opcode byte. -/
abbrev Byte := BitVec 8

/-- A 16-bit address or program counter value. -/
abbrev Addr := BitVec 16

end Sys2Proof
end

