-- ==== Sys2Proof/Config.lean ====
section
/-! DEFINITION. The values the model itself fixes where `00_scope.md` R4 leaves a launch argument open, and the opaque
constants for what the spec leaves unsaid. -/

namespace Sys2Proof.Config

/-- DESIGN CHOICE, unsafe (log entry 4): what a byte of memory reads as that the state does not list. -/
abbrev unlistedByte : Byte := 0

/-- DESIGN CHOICE, unsafe (log entry 3): A, X and Y in `State.reset`; `10_state.md` R24 leaves them open. -/
def resetRegister : Byte := 0

/-- DESIGN CHOICE, unsafe (log entry 3): Z, N and C in `State.reset`; `10_state.md` R24 leaves them open. -/
def resetFlag : Bool := false

/-- DESIGN CHOICE, unsafe (log entry 5): the argument `pc0` of the launch that `State.reset` stands for. -/
def resetPc : Addr := 0

/-- DESIGN CHOICE, unsafe (log entry 4): the memory shape of `State.reset`, 0 for the full shape. -/
def resetSize : Nat := 0

/-- DESIGN CHOICE, unsafe (log entry 6): the stack entries of `State.reset`; `10_state.md` R24 leaves them open. -/
def resetStackEntry : Byte := 0

/-- The default of the launch parameter `PULL_SETS_ZN` (`00_scope.md` R4, `92_eei_decisions.md` D12; log entry 10). -/
def defaultPullSetsZN : Bool := true

/-- DESIGN CHOICE, unsafe (log entry 23): the argument `tracer` of the launch that `State.reset` stands for, not supplied
(`00_scope.md` R4). -/
def resetTracer : Bool := false

/-- Open in the spec (`91_not_in_source.md` N17; log entry 19): whether the trace record shows the translated opcode
byte when a translator is attached. -/
opaque traceShowsTranslated : Bool

/-- Open in the spec (`91_not_in_source.md` N17; log entry 19): whether CMP, CPX and CPY count as "arith" for the
trace record's result byte. -/
opaque traceCompareIsArith : Bool

/-- Open in the spec (`91_not_in_source.md` N17; log entry 19): whether AND, ORA and EOR count as "arith" for the
trace record's result byte. -/
opaque traceLogicIsArith : Bool

end Sys2Proof.Config
end

