-- ==== Sys2Proof/Syntax.lean ====
section
/-! DEFINITION. The instructions as syntax: `Instr` has one constructor per row of `spec/opcode_table.json`. Before it
stand the operand forms of the two classes that have operands, and after it the launch parameter that numbers the
operations (`00_scope.md` R4: `MM_ORDER`, `IMPL_MAP`, `BR_ORDER`). -/

namespace Sys2Proof

/-- The eight addressing modes of the multimode class with their operand bytes (`30_encoding.md` R54, R60). -/
inductive Operand where
  /-- mode 0, `#v` (R74) -/
  | imm (v : Byte)
  /-- mode 1, `a16` (R75) -/
  | abs (a : Addr)
  /-- mode 2, `z8` (R76) -/
  | zp (z : Byte)
  /-- mode 3, `a16,X` (R77) -/
  | absX (a : Addr)
  /-- mode 4, `z8,X` (R78) -/
  | zpX (z : Byte)
  /-- mode 5, `a16,Y` (R79) -/
  | absY (a : Addr)
  /-- mode 6, `z8,Y` (R80) -/
  | zpY (z : Byte)
  /-- mode 7, `(z8),Y` (R81) -/
  | indY (z : Byte)
  deriving DecidableEq, Repr

/-- The two target forms of the branch class (`30_encoding.md` R58, `46_branch.md` R170, R171). -/
inductive Target where
  /-- relative, one displacement byte -/
  | rel (d : Byte)
  /-- absolute, a 16-bit target -/
  | abs (a : Addr)
  deriving DecidableEq, Repr

/-- One constructor per row of `spec/opcode_table.json`, in the table's order. -/
inductive Instr where
  | lda (o : Operand) | sta (o : Operand) | ldx (o : Operand) | stx (o : Operand) | ldy (o : Operand) | sty (o : Operand)
  | and (o : Operand) | ora (o : Operand) | eor (o : Operand) | lsr (o : Operand) | asl (o : Operand) | ror (o : Operand)
  | rol (o : Operand) | adc (o : Operand) | sbc (o : Operand) | inc (o : Operand) | dec (o : Operand) | cmp (o : Operand)
  | cpx (o : Operand) | cpy (o : Operand) | wud (o : Operand) | wsd (o : Operand) | wch (o : Operand) | wtx (o : Operand)
  | hlt | rts | lsa | asa | rra | rla | ina | dea | inx | dex
  | iny | dey | sez | clz | sen | cln | sec | clc | tax | txa
  | tay | tya | txy | tyx | pha | phx | phy | pla | plx | ply
  | wnl | wtb | wsp | rud | rsd | rch | rtx | illegalE5 | illegalE6 | illegalE7
  | illegalE8 | illegalE9 | illegalEA | illegalEB | illegalEC | illegalED | illegalEE | illegalEF
  | bsr (t : Target) | bra (t : Target) | bne (t : Target) | beq (t : Target)
  | bpl (t : Target) | bmi (t : Target) | bcc (t : Target) | bcs (t : Target)
  deriving DecidableEq, Repr

/-- The 24 multimode operations (`30_encoding.md` R53). -/
inductive MmOp where
  | lda | sta | ldx | stx | ldy | sty | and | ora | eor | lsr | asl | ror
  | rol | adc | sbc | inc | dec | cmp | cpx | cpy | wud | wsd | wch | wtx
  deriving DecidableEq, Repr

/-- The 48 slots of the implicit class: 33 executable operations, 4 reserved ones, 11 unassigned ones
(`30_encoding.md` R55 to R57). -/
inductive ImplOp where
  | hlt | rts | lsa | asa | rra | rla | ina | dea | inx | dex | iny | dey
  | sez | clz | sen | cln | sec | clc | tax | txa | tay | tya | txy | tyx
  | pha | phx | phy | pla | plx | ply | wnl | wtb | wsp | rud | rsd | rch
  | rtx | illegalE5 | illegalE6 | illegalE7 | illegalE8 | illegalE9 | illegalEA | illegalEB | illegalEC | illegalED | illegalEE | illegalEF
  deriving DecidableEq, Repr

/-- The eight branch types (`30_encoding.md` R59). -/
inductive BrOp where
  | bsr | bra | bne | beq | bpl | bmi | bcc | bcs
  deriving DecidableEq, Repr

/-- An instruction by class: what the opcode byte's fields select (`30_encoding.md` R51). -/
inductive Form where
  | mm (op : MmOp) (o : Operand)
  | impl (op : ImplOp)
  | br (op : BrOp) (t : Target)
  deriving DecidableEq, Repr

/-- The launch parameters `MM_ORDER`, `IMPL_MAP` and `BR_ORDER` (`00_scope.md` R4, `93_implementation_defined.md` U12;
log entry 9): entry `i` of `mm` is operation number `i`, entry `i` of `impl` is the byte `0xC0 + i`, entry `i` of `br`
is branch type `i`. -/
structure Numbering where
  mm : Vector MmOp 24
  impl : Vector ImplOp 48
  br : Vector BrOp 8
  deriving DecidableEq, Repr

/-- The eight addressing modes without their operand bytes, and the relative form of a branch: a "candidate addressing
mode" of the opcode table's legality check (`30_encoding.md` R64). -/
inductive Candidate where
  | immediate | absolute | zeroPage | absoluteX | zeroPageX | absoluteY | zeroPageY | indirectY | relative
  deriving DecidableEq, Repr

/-- The three instruction classes (`30_encoding.md` R51). -/
inductive OpClass where
  | multimode | implicit | branch
  deriving DecidableEq, Repr

end Sys2Proof
end

