-- ==== Sys2Proof/WellFormed.lean ====
section
/-! DEFINITION. Which terms are well formed: a numbering is a bijection (`00_scope.md` R4), and an instruction has an
operand form that its class admits (`30_encoding.md` R64). -/

namespace Sys2Proof

/-- Every multimode operation once. -/
def MmOp.all : List MmOp :=
  [.lda, .sta, .ldx, .stx, .ldy, .sty, .and, .ora, .eor, .lsr, .asl, .ror,
    .rol, .adc, .sbc, .inc, .dec, .cmp, .cpx, .cpy, .wud, .wsd, .wch, .wtx]

/-- Every slot of the implicit class once. -/
def ImplOp.all : List ImplOp :=
  [.hlt, .rts, .lsa, .asa, .rra, .rla, .ina, .dea, .inx, .dex, .iny, .dey,
    .sez, .clz, .sen, .cln, .sec, .clc, .tax, .txa, .tay, .tya, .txy, .tyx,
    .pha, .phx, .phy, .pla, .plx, .ply, .wnl, .wtb, .wsp, .rud, .rsd, .rch,
    .rtx, .illegalE5, .illegalE6, .illegalE7, .illegalE8, .illegalE9, .illegalEA, .illegalEB, .illegalEC, .illegalED, .illegalEE, .illegalEF]

/-- Every branch type once. -/
def BrOp.all : List BrOp :=
  [.bsr, .bra, .bne, .beq, .bpl, .bmi, .bcc, .bcs]

/-- `MM_ORDER` is a bijection: no operation twice, every operation once. -/
def Numbering.mmWf (m : Numbering) : Bool :=
  decide m.mm.toList.Nodup && MmOp.all.all (fun o => m.mm.toList.contains o)

/-- `IMPL_MAP` is an injective assignment of the implicit bytes, with the reserved and unassigned slots in the bytes
that are left over. -/
def Numbering.implWf (m : Numbering) : Bool :=
  decide m.impl.toList.Nodup && ImplOp.all.all (fun o => m.impl.toList.contains o)

/-- `BR_ORDER` is a bijection. -/
def Numbering.brWf (m : Numbering) : Bool :=
  decide m.br.toList.Nodup && BrOp.all.all (fun o => m.br.toList.contains o)

/-- The legal values of the three numbering parameters (`00_scope.md` R4). -/
def Numbering.wf (m : Numbering) : Bool := m.mmWf && m.implWf && m.brWf

/-- Mode legality by class (`30_encoding.md` R64): a branch takes relative or absolute, a multimode mnemonic any of the
eight modes, an implicit mnemonic none. -/
def OpClass.admits (c : OpClass) (m : Option Candidate) : Bool :=
  match c, m with
  | .multimode, some .relative => false
  | .multimode, some _ => true
  | .multimode, none => false
  | .implicit, none => true
  | .implicit, some _ => false
  | .branch, some .relative => true
  | .branch, some .absolute => true
  | .branch, _ => false

/-- The addressing mode of an operand. -/
def Operand.candidate : Operand → Candidate
  | .imm _ => .immediate
  | .abs _ => .absolute
  | .zp _ => .zeroPage
  | .absX _ => .absoluteX
  | .zpX _ => .zeroPageX
  | .absY _ => .absoluteY
  | .zpY _ => .zeroPageY
  | .indY _ => .indirectY

/-- The form of a branch target. -/
def Target.candidate : Target → Candidate
  | .rel _ => .relative
  | .abs _ => .absolute

/-- The class of an instruction by its form. -/
def Form.opClass : Form → OpClass
  | .mm _ _ => .multimode
  | .impl _ => .implicit
  | .br _ _ => .branch

/-- The operand form of an instruction, none for the implicit class. -/
def Form.candidate : Form → Option Candidate
  | .mm _ o => some o.candidate
  | .impl _ => none
  | .br _ t => some t.candidate

/-- The class admits the operand form. The operand types of `Instr` leave no way to break it: see
`Laws/Decode.lean`, `Instr.wf_true`. -/
def Form.wf (f : Form) : Bool := f.opClass.admits f.candidate

end Sys2Proof
end

