-- ==== Sys2Proof/Decode.lean ====
section
/-! DEFINITION. Decoding and encoding (spec file `30_encoding.md`). Decoding is a total function of the translated opcode byte
and the operand bytes, for every numbering (`40_step_and_addressing.md` R73); it refuses, by name, only a byte list
that ends too early. -/

namespace Sys2Proof

/-- Why a list of bytes holds no instruction. -/
inductive DecodeError where
  /-- the list is empty -/
  | noOpcode
  /-- the list ends before the operand bytes that the opcode byte asks for (`30_encoding.md` R61) -/
  | missingOperand
  deriving DecidableEq, Repr

/-- The 16-bit value of two bytes, the first the less significant (`20_memory.md` R37, `30_encoding.md` R60). -/
def word16 (lo hi : Byte) : Addr := hi ++ lo

/-- The less significant byte of an address. -/
def lowByte (a : Addr) : Byte := a.extractLsb' 0 8

/-- The more significant byte of an address. -/
def highByte (a : Addr) : Byte := a.extractLsb' 8 8

/-- The class of an opcode byte, by the ranges of `30_encoding.md` R51. -/
def classOf (op : Byte) : OpClass :=
  if op.toNat < 0xC0 then .multimode else if op.toNat < 0xF0 then .implicit else .branch

/-- The length in bytes of the instruction that an opcode byte begins (`30_encoding.md` R61). -/
def opLength (op : Byte) : Nat :=
  match classOf op with
  | .multimode =>
    if op.toNat % 8 = 1 ∨ op.toNat % 8 = 3 ∨ op.toNat % 8 = 5 then 3 else 2
  | .implicit => 1
  | .branch => if op.toNat % 2 = 1 then 3 else 2

/-- The operand that a mode number and the operand bytes give (`30_encoding.md` R54, R60). -/
def operandOf (mode : Nat) (b1 b2 : Byte) : Operand :=
  match mode with
  | 0 => .imm b1
  | 1 => .abs (word16 b1 b2)
  | 2 => .zp b1
  | 3 => .absX (word16 b1 b2)
  | 4 => .zpX b1
  | 5 => .absY (word16 b1 b2)
  | 6 => .zpY b1
  | _ => .indY b1

/-- The target that the `abs` bit and the operand bytes give (`30_encoding.md` R58, R60). -/
def targetOf (absBit : Nat) (b1 b2 : Byte) : Target :=
  if absBit = 0 then .rel b1 else .abs (word16 b1 b2)

/-- The mode number of an operand (`30_encoding.md` R54). -/
def Operand.mode : Operand → Nat
  | .imm _ => 0
  | .abs _ => 1
  | .zp _ => 2
  | .absX _ => 3
  | .zpX _ => 4
  | .absY _ => 5
  | .zpY _ => 6
  | .indY _ => 7

/-- The operand bytes of a multimode instruction, in the order they are fetched (`30_encoding.md` R60). -/
def Operand.bytes : Operand → List Byte
  | .imm v => [v]
  | .zp z => [z]
  | .zpX z => [z]
  | .zpY z => [z]
  | .indY z => [z]
  | .abs a => [lowByte a, highByte a]
  | .absX a => [lowByte a, highByte a]
  | .absY a => [lowByte a, highByte a]

/-- Bit 0 of a branch opcode (`30_encoding.md` R58). -/
def Target.absBit : Target → Nat
  | .rel _ => 0
  | .abs _ => 1

/-- The operand bytes of a branch (`30_encoding.md` R60). -/
def Target.bytes : Target → List Byte
  | .rel d => [d]
  | .abs a => [lowByte a, highByte a]

/-- The instruction of a multimode operation. -/
def MmOp.instr : MmOp → Operand → Instr
  | .lda, o => .lda o
  | .sta, o => .sta o
  | .ldx, o => .ldx o
  | .stx, o => .stx o
  | .ldy, o => .ldy o
  | .sty, o => .sty o
  | .and, o => .and o
  | .ora, o => .ora o
  | .eor, o => .eor o
  | .lsr, o => .lsr o
  | .asl, o => .asl o
  | .ror, o => .ror o
  | .rol, o => .rol o
  | .adc, o => .adc o
  | .sbc, o => .sbc o
  | .inc, o => .inc o
  | .dec, o => .dec o
  | .cmp, o => .cmp o
  | .cpx, o => .cpx o
  | .cpy, o => .cpy o
  | .wud, o => .wud o
  | .wsd, o => .wsd o
  | .wch, o => .wch o
  | .wtx, o => .wtx o

/-- The instruction of a slot of the implicit class. -/
def ImplOp.instr : ImplOp → Instr
  | .hlt => .hlt
  | .rts => .rts
  | .lsa => .lsa
  | .asa => .asa
  | .rra => .rra
  | .rla => .rla
  | .ina => .ina
  | .dea => .dea
  | .inx => .inx
  | .dex => .dex
  | .iny => .iny
  | .dey => .dey
  | .sez => .sez
  | .clz => .clz
  | .sen => .sen
  | .cln => .cln
  | .sec => .sec
  | .clc => .clc
  | .tax => .tax
  | .txa => .txa
  | .tay => .tay
  | .tya => .tya
  | .txy => .txy
  | .tyx => .tyx
  | .pha => .pha
  | .phx => .phx
  | .phy => .phy
  | .pla => .pla
  | .plx => .plx
  | .ply => .ply
  | .wnl => .wnl
  | .wtb => .wtb
  | .wsp => .wsp
  | .rud => .rud
  | .rsd => .rsd
  | .rch => .rch
  | .rtx => .rtx
  | .illegalE5 => .illegalE5
  | .illegalE6 => .illegalE6
  | .illegalE7 => .illegalE7
  | .illegalE8 => .illegalE8
  | .illegalE9 => .illegalE9
  | .illegalEA => .illegalEA
  | .illegalEB => .illegalEB
  | .illegalEC => .illegalEC
  | .illegalED => .illegalED
  | .illegalEE => .illegalEE
  | .illegalEF => .illegalEF

/-- The instruction of a branch type. -/
def BrOp.instr : BrOp → Target → Instr
  | .bsr, t => .bsr t
  | .bra, t => .bra t
  | .bne, t => .bne t
  | .beq, t => .beq t
  | .bpl, t => .bpl t
  | .bmi, t => .bmi t
  | .bcc, t => .bcc t
  | .bcs, t => .bcs t

/-- The instruction of a form. -/
def Form.instr : Form → Instr
  | .mm op o => op.instr o
  | .impl op => op.instr
  | .br op t => op.instr t

/-- The form of an instruction. -/
def Instr.form : Instr → Form
  | .lda o => .mm .lda o
  | .sta o => .mm .sta o
  | .ldx o => .mm .ldx o
  | .stx o => .mm .stx o
  | .ldy o => .mm .ldy o
  | .sty o => .mm .sty o
  | .and o => .mm .and o
  | .ora o => .mm .ora o
  | .eor o => .mm .eor o
  | .lsr o => .mm .lsr o
  | .asl o => .mm .asl o
  | .ror o => .mm .ror o
  | .rol o => .mm .rol o
  | .adc o => .mm .adc o
  | .sbc o => .mm .sbc o
  | .inc o => .mm .inc o
  | .dec o => .mm .dec o
  | .cmp o => .mm .cmp o
  | .cpx o => .mm .cpx o
  | .cpy o => .mm .cpy o
  | .wud o => .mm .wud o
  | .wsd o => .mm .wsd o
  | .wch o => .mm .wch o
  | .wtx o => .mm .wtx o
  | .hlt => .impl .hlt
  | .rts => .impl .rts
  | .lsa => .impl .lsa
  | .asa => .impl .asa
  | .rra => .impl .rra
  | .rla => .impl .rla
  | .ina => .impl .ina
  | .dea => .impl .dea
  | .inx => .impl .inx
  | .dex => .impl .dex
  | .iny => .impl .iny
  | .dey => .impl .dey
  | .sez => .impl .sez
  | .clz => .impl .clz
  | .sen => .impl .sen
  | .cln => .impl .cln
  | .sec => .impl .sec
  | .clc => .impl .clc
  | .tax => .impl .tax
  | .txa => .impl .txa
  | .tay => .impl .tay
  | .tya => .impl .tya
  | .txy => .impl .txy
  | .tyx => .impl .tyx
  | .pha => .impl .pha
  | .phx => .impl .phx
  | .phy => .impl .phy
  | .pla => .impl .pla
  | .plx => .impl .plx
  | .ply => .impl .ply
  | .wnl => .impl .wnl
  | .wtb => .impl .wtb
  | .wsp => .impl .wsp
  | .rud => .impl .rud
  | .rsd => .impl .rsd
  | .rch => .impl .rch
  | .rtx => .impl .rtx
  | .illegalE5 => .impl .illegalE5
  | .illegalE6 => .impl .illegalE6
  | .illegalE7 => .impl .illegalE7
  | .illegalE8 => .impl .illegalE8
  | .illegalE9 => .impl .illegalE9
  | .illegalEA => .impl .illegalEA
  | .illegalEB => .impl .illegalEB
  | .illegalEC => .impl .illegalEC
  | .illegalED => .impl .illegalED
  | .illegalEE => .impl .illegalEE
  | .illegalEF => .impl .illegalEF
  | .bsr t => .br .bsr t
  | .bra t => .br .bra t
  | .bne t => .br .bne t
  | .beq t => .br .beq t
  | .bpl t => .br .bpl t
  | .bmi t => .br .bmi t
  | .bcc t => .br .bcc t
  | .bcs t => .br .bcs t

/-- The default opcode map: `30_encoding.md` R53, R55 and R59 (spec decisions D1, D2, D5; log entry 9). -/
def Numbering.default : Numbering where
  mm := #v[.lda, .sta, .ldx, .stx, .ldy, .sty, .and, .ora, .eor, .lsr, .asl, .ror,
    .rol, .adc, .sbc, .inc, .dec, .cmp, .cpx, .cpy, .wud, .wsd, .wch, .wtx]
  impl := #v[.hlt, .rts, .lsa, .asa, .rra, .rla, .ina, .dea, .inx, .dex, .iny, .dey,
    .sez, .clz, .sen, .cln, .sec, .clc, .tax, .txa, .tay, .tya, .txy, .tyx,
    .pha, .phx, .phy, .pla, .plx, .ply, .wnl, .wtb, .wsp, .rud, .rsd, .rch,
    .rtx, .illegalE5, .illegalE6, .illegalE7, .illegalE8, .illegalE9, .illegalEA, .illegalEB, .illegalEC, .illegalED, .illegalEE, .illegalEF]
  br := #v[.bsr, .bra, .bne, .beq, .bpl, .bmi, .bcc, .bcs]

/-- The form that an opcode byte selects, given the two bytes after it; a byte that the length does not take is not
looked at (`30_encoding.md` R51, R52, R55, R58). -/
def formOf (m : Numbering) (op b1 b2 : Byte) : Form :=
  if hM : op.toNat < 0xC0 then
    .mm (m.mm[op.toNat / 8]'(by omega)) (operandOf (op.toNat % 8) b1 b2)
  else if hI : op.toNat < 0xF0 then
    .impl (m.impl[op.toNat - 0xC0]'(by omega))
  else
    .br (m.br[(op.toNat - 0xF0) / 2]'(by have := op.isLt; omega)) (targetOf (op.toNat % 2) b1 b2)

/-- The instruction that an opcode byte selects, given the two bytes after it. -/
def build (m : Numbering) (op b1 b2 : Byte) : Instr := (formOf m op b1 b2).instr

/-- Decode the first instruction of a byte list under a numbering, and give the bytes after it
(`30_encoding.md` R50, R61; `40_step_and_addressing.md` R73). -/
def decodeWith (m : Numbering) : List Byte → Except DecodeError (Instr × List Byte)
  | [] => .error .noOpcode
  | op :: rest =>
    match opLength op, rest with
    | 1, rest => .ok (build m op 0 0, rest)
    | 2, b1 :: rest => .ok (build m op b1 0, rest)
    | 3, b1 :: b2 :: rest => .ok (build m op b1 b2, rest)
    | _, _ => .error .missingOperand

/-- Decode under the default opcode map. -/
def decode (bytes : List Byte) : Except DecodeError (Instr × List Byte) :=
  decodeWith Numbering.default bytes

/-- The byte that a numbering gives a slot of the implicit class (`30_encoding.md` R55). -/
def implByte (m : Numbering) (op : ImplOp) : Byte := BitVec.ofNat 8 (0xC0 + m.impl.toList.idxOf op)

/-- The base byte `opr * 8` of a multimode operation (`30_encoding.md` R52, R63). -/
def mmBase (m : Numbering) (op : MmOp) : Nat := m.mm.toList.idxOf op * 8

/-- The base byte `0xF0 + btype * 2` of a branch type (`30_encoding.md` R58, R63). -/
def brBase (m : Numbering) (op : BrOp) : Nat := 0xF0 + m.br.toList.idxOf op * 2

/-- The bytes of a form under a numbering. -/
def Form.encode (m : Numbering) : Form → List Byte
  | .mm op o => BitVec.ofNat 8 (mmBase m op + o.mode) :: o.bytes
  | .impl op => [implByte m op]
  | .br op t => BitVec.ofNat 8 (brBase m op + t.absBit) :: t.bytes

/-- The bytes of an instruction under a numbering, the opcode byte first. -/
def encodeWith (m : Numbering) (i : Instr) : List Byte := i.form.encode m

/-- The bytes of an instruction under the default opcode map. -/
def encode (i : Instr) : List Byte := encodeWith Numbering.default i

/-- The three bytes of a table word: bits 7..0 the opcode byte, 15..8 the first operand byte, 23..16 the second; every
bit from `nbits` up is 0. -/
def tableBytes (nbits w : Nat) : List Byte :=
  let v := w % 2 ^ nbits
  [BitVec.ofNat 8 v, BitVec.ofNat 8 (v / 256), BitVec.ofNat 8 (v / 65536)]

/-- The instruction that the decoder reads from a word of the opcode table, under the default opcode map. -/
def decodeTableWord (nbits w : Nat) : Option Instr :=
  match decode (tableBytes nbits w) with
  | .ok (i, _) => some i
  | .error _ => none

end Sys2Proof
end

