-- ==== Sys2Proof/Machine/State.lean ====
section
/-! DEFINITION. The state of the machine as plain data (`10_state.md`), the reasons a step can stop, and the state
after creation. -/

namespace Sys2Proof.Machine

/-- The Memory record (`20_memory.md` R30 to R36): `size` is 0 for the full 65536-byte space and the byte count
otherwise; `cells` lists the bytes that differ from `Config.unlistedByte`, by rising address. -/
structure Memory where
  size : Nat
  cells : List Host.Cell
  deriving DecidableEq, Repr

/-- The opcode-translation observer's state (`10_state.md` R19). -/
structure Translator where
  /-- the 256-entry remap table `T.map` -/
  map : Vector Byte 256
  /-- the shadow `T.input` -/
  input : Memory
  /-- the shadow `T.output` -/
  output : Memory
  deriving DecidableEq, Repr

/-- Why a step returned halt, with the value `60_exceptions.md` R210 records. -/
inductive Cause where
  /-- the orderly stop -/
  | hlt
  /-- an implicit-class byte with no executable behaviour: the translated opcode byte (R211) -/
  | illegalOpcode (op : Byte)
  /-- a push without room (R212) -/
  | stackOverflow
  /-- a pop from the empty stack (R212) -/
  | stackUnderflow
  /-- an access beyond a bounded memory, or a string scan past the end: the offending address, which for a scan may
  be 65536 (R213) -/
  | outOfBounds (a : Nat)
  deriving DecidableEq, Repr

/-- The run status (`10_state.md` R21). -/
inductive Status where
  | running
  | halted (cause : Cause)
  deriving DecidableEq, Repr

/-- The launch parameters of `00_scope.md` R4 that no record of the source holds. The MODEL's own constant field: no
step changes it (log entries 9, 10 and 23). -/
structure Params where
  /-- `MM_ORDER`, `IMPL_MAP`, `BR_ORDER` -/
  numbering : Numbering
  /-- `PULL_SETS_ZN` -/
  pullSetsZN : Bool
  /-- `tracer`: whether a trace buffer is supplied; no instruction reads it (`51_interfaces.md` R205) -/
  tracer : Bool
  deriving DecidableEq, Repr

/-- The whole machine. INVENTORY.md, heading State, names the rule of each field. -/
structure State where
  /-- the accumulator A -/
  a : Byte
  /-- the index register X -/
  x : Byte
  /-- the index register Y -/
  y : Byte
  /-- the Zero flag -/
  z : Bool
  /-- the Negative flag -/
  n : Bool
  /-- the Carry flag -/
  c : Bool
  /-- the address from which the next byte is fetched -/
  pc : Addr
  /-- the number of bytes on the private stack, 0 to 256 -/
  sp : Nat
  /-- the private stack -/
  stack : Vector Byte 256
  /-- live memory -/
  mem : Memory
  /-- running, or halted with a cause -/
  status : Status
  /-- the bytes emitted so far, oldest first -/
  out : List Byte
  /-- the observer, when one is attached -/
  translator : Option Translator
  /-- the launch parameters -/
  params : Params
  deriving DecidableEq, Repr

/-- The machine's only stop without a next state. A halting instruction is no stop of the model: it answers a next
state whose status is `halted`. -/
inductive Fault where
  /-- Raised by `step` alone, on a state that has halted: no step is taken from a halted machine
  (`40_step_and_addressing.md` R86, spec decision D21, U6 "stuck"; log entry 2). Safe. -/
  | noStepWhenHalted
  deriving DecidableEq, Repr

/-- Reasons for which the model gives an instruction no meaning. -/
inductive Refusal where
  /-- Raised only by an arm of `exec` whose instruction has no meaning yet; there is none. Safe. -/
  | notModelled (mnemonic : String)
  deriving DecidableEq, Repr

/-- The state after creation (`10_state.md` R24), for one choice of the launch arguments: the full shape, all bytes
of memory 0, `pc0` = 0, registers and flags 0, no translator, no tracer (DESIGN CHOICE, unsafe: log entries 3 to 7 and 23). The general
launch is `Launch.start` in `Machine/Launch.lean`. -/
def State.reset : State where
  a := Config.resetRegister
  x := Config.resetRegister
  y := Config.resetRegister
  z := Config.resetFlag
  n := Config.resetFlag
  c := Config.resetFlag
  pc := Config.resetPc
  sp := 0
  stack := Vector.replicate 256 Config.resetStackEntry
  mem := { size := Config.resetSize, cells := [] }
  status := .running
  out := []
  translator := none
  params :=
    { numbering := Numbering.default, pullSetsZN := Config.defaultPullSetsZN, tracer := Config.resetTracer }

end Sys2Proof.Machine
end

