-- ==== Sys2Proof/Machine/Memory.lean ====
section
/-! DEFINITION. The memory controller (`20_memory.md` R30 to R36): bounds, the lenient read port, the strict write
port, the raw view, and the canonical form of the cell list. -/

namespace Sys2Proof.Machine

/-- The byte a cell list holds at an address. -/
def cellAt : List Host.Cell → Nat → Byte
  | [], _ => Config.unlistedByte
  | e :: es, a => if e.1 = a then e.2 else cellAt es a

/-- A cell list with one more cell, in its place by address. -/
def insertCell (a : Nat) (v : Byte) : List Host.Cell → List Host.Cell
  | [] => [(a, v)]
  | e :: es => if a < e.1 then (a, v) :: e :: es else e :: insertCell a v es

/-- A cell list with the byte at one address replaced; writing what an unlisted address reads as removes the cell. -/
def setCell (cells : List Host.Cell) (a : Nat) (v : Byte) : List Host.Cell :=
  let others := cells.filter fun e => e.1 != a
  if v = Config.unlistedByte then others else insertCell a v others

/-- The first address above the memory: 65536 in the full shape, `size` otherwise (`20_memory.md` R31). -/
def Memory.limit (m : Memory) : Nat := if m.size = 0 then 65536 else m.size

/-- `InBounds(a)` (`20_memory.md` R32). -/
def Memory.inBounds (m : Memory) (a : Addr) : Bool := m.size == 0 || decide (a.toNat < m.size)

/-- The byte at an index below the limit, 0 at any other (`20_memory.md` R33, R35). -/
def Memory.byteAt (m : Memory) (a : Nat) : Byte := if a < m.limit then cellAt m.cells a else 0

/-- The port `read`: lenient, never fails, 0 out of bounds (`20_memory.md` R33). -/
def Memory.read (m : Memory) (a : Addr) : Byte := m.byteAt a.toNat

/-- What the port `write` leaves: one byte stored when the address is in bounds, nothing otherwise
(`20_memory.md` R34, `90_conflicts.md` C9). -/
def Memory.store (m : Memory) (a : Addr) (v : Byte) : Memory :=
  if m.inBounds a then { m with cells := setCell m.cells a.toNat v } else m

/-- The port `write`: the memory it leaves and whether it succeeded (`20_memory.md` R34). -/
def Memory.write (m : Memory) (a : Addr) (v : Byte) : Memory × Bool := (m.store a v, m.inBounds a)

/-- The port `raw_view`: the contents as one run from address 0 to the last address (`20_memory.md` R35). -/
def Memory.rawView (m : Memory) : List Byte := (List.range m.limit).map m.byteAt

/-- The addresses of a cell list rise strictly. -/
def rising : List Host.Cell → Bool
  | [] => true
  | [_] => true
  | e :: f :: es => decide (e.1 < f.1) && rising (f :: es)

/-- The canonical form: `size` is legal, addresses rise strictly, every cell lies below the limit, and no cell holds
what an unlisted address reads as. -/
def Memory.wf (m : Memory) : Bool :=
  decide (m.size ≤ 65536) && rising m.cells
    && m.cells.all fun e => decide (e.1 < m.limit) && decide (e.2 ≠ Config.unlistedByte)

end Sys2Proof.Machine
end

