-- ==== Sys2Proof/Machine/Ops.lean ====
section
/-! DEFINITION. The named operations over the state: taking a halt, fetching (with the translator's opcode-fetch
event), the checked read and the store (with the translator's data-write event), the private stack, the output stream. -/

namespace Sys2Proof.Machine

open Host (Outcome)

/-- The state a halting step leaves: the status records the cause, and nothing is saved, pushed or vectored
(`60_exceptions.md` R215, R216). -/
def State.halt (cause : Cause) (s : State) : State := { s with status := .halted cause }

/-- `raise`: the step ends at once, in the state reached so far (`40_step_and_addressing.md` R70,
`60_exceptions.md` R215, R216). This is the machine's one way of taking an exception. There is no return from it
(`60_exceptions.md` R217), so no operation stands beside it. -/
def raise (cause : Cause) (s : State) : Outcome State Fault Refusal := .next (s.halt cause)

/-- The end of an instruction that may have been raised out of: either way the step answers a state. -/
def finish : Except State State → Outcome State Fault Refusal
  | .ok s => .next s
  | .error s => .next s

/-- `MemRead(a, 1)`: the byte, or the offending address (`20_memory.md` R36). -/
def State.memRead (a : Addr) (s : State) : Except Nat Byte :=
  if s.mem.inBounds a then .ok (s.mem.read a) else .error a.toNat

/-- The opcode-fetch event's two writes (`50_translator.md` R193). -/
def Translator.onOpcodeFetch (t : Translator) (a0 : Addr) (op : Byte) : Translator :=
  { t with input := t.input.store a0 op, output := t.output.store a0 op }

/-- The data-write event (`50_translator.md` R194): `input` is not touched and the table is not applied. -/
def Translator.onDataWrite (t : Translator) (a : Addr) (v : Byte) : Translator :=
  { t with output := t.output.store a v }

/-- `T.map[raw]`. -/
def Translator.lookup (t : Translator) (raw : Byte) : Byte := t.map[raw.toNat]

/-- The byte that drives decode: the raw byte mapped, when a translator is attached (`40_step_and_addressing.md` R71). -/
def State.translate (raw : Byte) (s : State) : Byte :=
  match s.translator with
  | none => raw
  | some t => t.lookup raw

/-- The state after the translator, if any, has recorded an opcode fetch. -/
def State.noteOpcode (a0 : Addr) (op : Byte) (s : State) : State :=
  { s with translator := s.translator.map fun t => t.onOpcodeFetch a0 op }

/-- What a successful `MemWrite(a, 1, v)` does: the byte is stored in live memory, then the translator, if any, gets
the data-write event (`20_memory.md` R36, `50_translator.md` R194). -/
def State.store (a : Addr) (v : Byte) (s : State) : State :=
  { s with
    mem := s.mem.store a v
    translator := s.translator.map fun t => t.onDataWrite a v }

/-- The program counter replaced. -/
def State.withPc (a : Addr) (s : State) : State := { s with pc := a }

/-- `FetchByte()`: the check is on the address read, never on the advanced `pc` (`40_step_and_addressing.md` R72,
`10_state.md` R13). -/
def fetchByte (s : State) : Except State (Byte × State) :=
  if s.mem.inBounds s.pc then .ok (s.mem.read s.pc, s.withPc (s.pc + 1))
  else .error (s.halt (.outOfBounds s.pc.toNat))

/-- Phase 1 of the step: fetch the opcode byte, map it, record it in both shadows (`40_step_and_addressing.md` R70, R71). -/
def fetchOpcode (s : State) : Except State (Byte × State) :=
  match fetchByte s with
  | .error h => .error h
  | .ok (raw, s1) => .ok (s.translate raw, s1.noteOpcode s.pc (s.translate raw))

/-- Phases 1 to 3 of the step as far as bytes are fetched: the opcode byte, then the operand bytes its length asks for,
then the decoded instruction (`40_step_and_addressing.md` R70 to R73, `30_encoding.md` R61). -/
def fetchInstr (s : State) : Except State (Instr × State) :=
  match fetchOpcode s with
  | .error h => .error h
  | .ok (op, s1) =>
    match opLength op with
    | 1 => .ok (build s.params.numbering op 0 0, s1)
    | 2 =>
      match fetchByte s1 with
      | .error h => .error h
      | .ok (b1, s2) => .ok (build s.params.numbering op b1 0, s2)
    | _ =>
      match fetchByte s1 with
      | .error h => .error h
      | .ok (b1, s2) =>
        match fetchByte s2 with
        | .error h => .error h
        | .ok (b2, s3) => .ok (build s.params.numbering op b1 b2, s3)

/-- `Push(v)` (`10_state.md` R17): a full stack halts the step and no entry is written. -/
def push (v : Byte) (s : State) : Except State State :=
  if h : s.sp < 256 then .ok { s with stack := s.stack.set s.sp v, sp := s.sp + 1 }
  else .error (s.halt .stackOverflow)

/-- `Pop()` (`10_state.md` R17): an empty stack halts the step and no register changes. An `sp` above 256, which no run
reaches (log entry 6), reads 0. -/
def pop (s : State) : Except State (Byte × State) :=
  if s.sp = 0 then .error (s.halt .stackUnderflow)
  else .ok (s.stack[s.sp - 1]?.getD 0, { s with sp := s.sp - 1 })

/-- `Emit` of a run of bytes in order (`44_output.md` R120, `10_state.md` R20). -/
def State.emit (bs : List Byte) (s : State) : State := { s with out := s.out ++ bs }

end Sys2Proof.Machine
end

