-- ==== Sys2Proof/Machine/Flags.lean ====
section
/-! DEFINITION. Every flag computation: the uniform Zero and Negative rule (`10_state.md` R15), the shifts and rotates
(`42_logic_shift.md`, section 2), the 9-bit sums and differences (`43_arith_compare.md` R110, R111), the compares. -/

namespace Sys2Proof.Machine

/-- `SetZN(v)` (`10_state.md` R15). -/
def State.setZN (v : Byte) (s : State) : State := { s with z := decide (v = 0), n := v.msb }

/-- Carry replaced. -/
def State.setC (c : Bool) (s : State) : State := { s with c := c }

/-- A gets a result, and Z and N follow it. -/
def State.loadA (v : Byte) (s : State) : State := { s with a := v }.setZN v

/-- X gets a result, and Z and N follow it. -/
def State.loadX (v : Byte) (s : State) : State := { s with x := v }.setZN v

/-- Y gets a result, and Z and N follow it. -/
def State.loadY (v : Byte) (s : State) : State := { s with y := v }.setZN v

/-- The four shifts and rotates. -/
inductive ShiftKind where
  | asl | lsr | rol | ror
  deriving DecidableEq, Repr

/-- `Shift(kind, v, c_in)`: the result byte and the bit shifted out (`42_logic_shift.md`, section 2; G1, G6). -/
def shift (kind : ShiftKind) (v : Byte) (cin : Bool) : Byte × Bool :=
  match kind with
  | .asl => (BitVec.ofNat 8 (v.toNat * 2), v.msb)
  | .lsr => (BitVec.ofNat 8 (v.toNat / 2), v.getLsbD 0)
  | .rol => (BitVec.ofNat 8 (v.toNat * 2 % 256 + cin.toNat), v.msb)
  | .ror => (BitVec.ofNat 8 (v.toNat / 2 + cin.toNat * 128), v.getLsbD 0)

/-- ADC's sum modulo 256 and its carry, from the exact sum (`43_arith_compare.md` R110). -/
def addCarry (a m : Byte) (cin : Bool) : Byte × Bool :=
  let sum := a.toNat + m.toNat + cin.toNat
  (BitVec.ofNat 8 sum, decide (sum > 255))

/-- SBC's difference modulo 256 and its carry, "no borrow", from the exact difference (`43_arith_compare.md` R111). -/
def subBorrow (a m : Byte) (cin : Bool) : Byte × Bool :=
  let d : Int := (a.toNat : Int) - (m.toNat : Int) - (1 - (cin.toNat : Int))
  (BitVec.ofInt 8 d, decide (0 ≤ d))

/-- `Compare(reg)` on an operand: Z and N from the difference modulo 256, C set when the difference is below the register,
so never at operand 0 (`43_arith_compare.md` R114 to R116, U4). -/
def compare (reg m : Byte) (s : State) : State :=
  (s.setC (decide ((reg - m).toNat < reg.toNat))).setZN (reg - m)

end Sys2Proof.Machine
end

