-- ==== Sys2Proof/Machine/Operands.lean ====
section
/-! DEFINITION. Every operand form: the addressing-mode resolver with its bounds check (`40_step_and_addressing.md`
R74 to R83), branch targets (`46_branch.md` R170 to R172), and the ways an instruction uses its operand. A meaning runs
with the operand bytes fetched, so `pc` is the address of the next instruction. -/

namespace Sys2Proof.Machine

open Host (Outcome)

/-- `zext_16` (`00_scope.md`, notation). -/
def zext16 (b : Byte) : Addr := b.setWidth 16

/-- `sext_16` (`00_scope.md`, notation; two's complement, G5). -/
def sext16 (b : Byte) : Addr := b.signExtend 16

/-- The pointer of mode 7, read low byte first from `z` and `z + 1` without a wrap to page 0, both bytes checked
(`40_step_and_addressing.md` R81; spec decisions D8, D9). -/
def pointer (z : Byte) (s : State) : Except Nat Addr :=
  match s.memRead (zext16 z) with
  | .error a => .error a
  | .ok lo =>
    match s.memRead (zext16 z + 1) with
    | .error a => .error a
    | .ok hi => .ok (word16 lo hi)

/-- `Resolve(mode)` after the operand bytes have been fetched (`40_step_and_addressing.md` R74 to R82). Addition of
addresses is modulo 65536; a zero-page base plus an index is not confined to page 0. The operand byte of mode 0 is the
last byte fetched, so its address is one below `pc`. -/
def resolve (o : Operand) (s : State) : Except Nat Addr :=
  match o with
  | .imm _ => .ok (s.pc - 1)
  | .abs a => .ok a
  | .zp z => .ok (zext16 z)
  | .absX a => .ok (a + zext16 s.x)
  | .zpX z => .ok (zext16 z + zext16 s.x)
  | .absY a => .ok (a + zext16 s.y)
  | .zpY z => .ok (zext16 z + zext16 s.y)
  | .indY z =>
    match pointer z s with
    | .error a => .error a
    | .ok p => .ok (p + zext16 s.y)

/-- The effective address once it has passed the check, or the offending address (`40_step_and_addressing.md` R83). -/
def effectiveAddr (o : Operand) (s : State) : Except Nat Addr :=
  match resolve o s with
  | .error a => .error a
  | .ok ea => if s.mem.inBounds ea then .ok ea else .error ea.toNat

/-- Run an operation on its effective address; an address out of bounds halts the step before the operation does
anything (`40_step_and_addressing.md` R83). -/
def withOperand (o : Operand) (s : State) (k : Addr → Outcome State Fault Refusal) : Outcome State Fault Refusal :=
  match effectiveAddr o s with
  | .error a => raise (.outOfBounds a) s
  | .ok ea => k ea

/-- An operation that only reads its operand (`ReadOperand`, `40_step_and_addressing.md` R84). -/
def reading (o : Operand) (s : State) (f : Byte → State) : Outcome State Fault Refusal :=
  withOperand o s fun ea => .next (f (s.mem.read ea))

/-- An operation that stores a byte at its effective address (`WriteResult`, `40_step_and_addressing.md` R84). -/
def storing (o : Operand) (s : State) (v : Byte) : Outcome State Fault Refusal :=
  withOperand o s fun ea => .next (s.store ea v)

/-- An operation that reads its operand, stores a result computed from it at the same address, and then goes on with
the byte read (`40_step_and_addressing.md` R84). -/
def modifying (o : Operand) (s : State) (f : Byte → Byte) (k : Byte → State → State) : Outcome State Fault Refusal :=
  withOperand o s fun ea => .next (k (s.mem.read ea) (s.store ea (f (s.mem.read ea))))

/-- `ResolveTarget(abs)` after the operand bytes have been fetched: a displacement counts from the address after it
(`46_branch.md` R170, R171). -/
def resolveTarget (t : Target) (s : State) : Addr :=
  match t with
  | .rel d => s.pc + sext16 d
  | .abs a => a

/-- Run a branch on its target. The target is checked for every branch, taken or not, and before anything is pushed
(`46_branch.md` R172; spec decision D18). -/
def withTarget (t : Target) (s : State) (k : Addr → Outcome State Fault Refusal) : Outcome State Fault Refusal :=
  if s.mem.inBounds (resolveTarget t s) then k (resolveTarget t s)
  else raise (.outOfBounds (resolveTarget t s).toNat) s

/-- A branch that is taken when a condition holds; otherwise `pc` stays at the next instruction (`46_branch.md` R183). -/
def branchIf (taken : Bool) (t : Target) (s : State) : Outcome State Fault Refusal :=
  withTarget t s fun a => .next (if taken then s.withPc a else s)

end Sys2Proof.Machine
end

