-- ==== Sys2Proof/Machine/Arith.lean ====
section
/-! DEFINITION. Arithmetic, increment, decrement and compare on an addressed byte (`43_arith_compare.md`). -/

namespace Sys2Proof.Machine

open Host (Outcome)

/-- ADC (`43_arith_compare.md` R110). -/
def execAdc (o : Operand) (s : State) : Outcome State Fault Refusal :=
  reading o s fun m => (s.setC (addCarry s.a m s.c).2).loadA (addCarry s.a m s.c).1

/-- SBC (`43_arith_compare.md` R111). -/
def execSbc (o : Operand) (s : State) : Outcome State Fault Refusal :=
  reading o s fun m => (s.setC (subBorrow s.a m s.c).2).loadA (subBorrow s.a m s.c).1

/-- INC (`43_arith_compare.md` R112): C is unchanged. -/
def execInc (o : Operand) (s : State) : Outcome State Fault Refusal :=
  modifying o s (fun v => v + 1) fun v s1 => s1.setZN (v + 1)

/-- DEC (`43_arith_compare.md` R113): C is unchanged. -/
def execDec (o : Operand) (s : State) : Outcome State Fault Refusal :=
  modifying o s (fun v => v - 1) fun v s1 => s1.setZN (v - 1)

/-- CMP (`43_arith_compare.md` R114). -/
def execCmp (o : Operand) (s : State) : Outcome State Fault Refusal := reading o s fun m => compare s.a m s

/-- CPX (`43_arith_compare.md` R115). -/
def execCpx (o : Operand) (s : State) : Outcome State Fault Refusal := reading o s fun m => compare s.x m s

/-- CPY (`43_arith_compare.md` R116). -/
def execCpy (o : Operand) (s : State) : Outcome State Fault Refusal := reading o s fun m => compare s.y m s

end Sys2Proof.Machine
end

