-- ==== Sys2Proof/Machine/Branch.lean ====
section
/-! DEFINITION. The branch class (`46_branch.md`). `pc` is the address of the next instruction; no branch changes a
register, a flag or memory. -/

namespace Sys2Proof.Machine

open Host (Outcome)

/-- BSR (`46_branch.md` R173): room for both bytes is checked first (spec decision D19), then the return address is
pushed low byte first, then control goes to the target. -/
def execBsr (t : Target) (s : State) : Outcome State Fault Refusal :=
  withTarget t s fun a =>
    if s.sp > 254 then raise .stackOverflow s
    else
      match push (lowByte s.pc) s with
      | .error h => .next h
      | .ok s1 =>
        match push (highByte s.pc) s1 with
        | .error h => .next h
        | .ok s2 => .next (s2.withPc a)

/-- BRA (`46_branch.md` R174). -/
def execBra (t : Target) (s : State) : Outcome State Fault Refusal := branchIf true t s

/-- BNE (`46_branch.md` R175). -/
def execBne (t : Target) (s : State) : Outcome State Fault Refusal := branchIf (!s.z) t s

/-- BEQ (`46_branch.md` R176). -/
def execBeq (t : Target) (s : State) : Outcome State Fault Refusal := branchIf s.z t s

/-- BPL (`46_branch.md` R177). -/
def execBpl (t : Target) (s : State) : Outcome State Fault Refusal := branchIf (!s.n) t s

/-- BMI (`46_branch.md` R178). -/
def execBmi (t : Target) (s : State) : Outcome State Fault Refusal := branchIf s.n t s

/-- BCC (`46_branch.md` R179). -/
def execBcc (t : Target) (s : State) : Outcome State Fault Refusal := branchIf (!s.c) t s

/-- BCS (`46_branch.md` R180). -/
def execBcs (t : Target) (s : State) : Outcome State Fault Refusal := branchIf s.c t s

end Sys2Proof.Machine
end

