-- ==== Sys2Proof/Machine/Implicit.lean ====
section
/-! DEFINITION. The implicit-class instructions (`45_implicit.md`). `pc` is the address of the next instruction. -/

namespace Sys2Proof.Machine

open Host (Outcome)

/-- HLT (`45_implicit.md` R130). -/
def execHlt (s : State) : Outcome State Fault Refusal := raise .hlt s

/-- RTS (`45_implicit.md` R131): high byte, then low byte; the target is checked after both pops. -/
def execRts (s : State) : Outcome State Fault Refusal :=
  match pop s with
  | .error h => .next h
  | .ok (hi, s1) =>
    match pop s1 with
    | .error h => .next h
    | .ok (lo, s2) =>
      if s2.mem.inBounds (word16 lo hi) then .next (s2.withPc (word16 lo hi))
      else raise (.outOfBounds (word16 lo hi).toNat) s2

/-- A shift or rotate of A: C takes the bit shifted out, Z and N follow the result (`45_implicit.md`, section 2). -/
def shiftA (kind : ShiftKind) (s : State) : Outcome State Fault Refusal :=
  .next ((s.setC (shift kind s.a s.c).2).loadA (shift kind s.a s.c).1)

/-- LSA (`45_implicit.md` R132). -/
def execLsa (s : State) : Outcome State Fault Refusal := shiftA .lsr s

/-- ASA (`45_implicit.md` R133). -/
def execAsa (s : State) : Outcome State Fault Refusal := shiftA .asl s

/-- RRA (`45_implicit.md` R134). -/
def execRra (s : State) : Outcome State Fault Refusal := shiftA .ror s

/-- RLA (`45_implicit.md` R135). -/
def execRla (s : State) : Outcome State Fault Refusal := shiftA .rol s

/-- INA (`45_implicit.md` R136). -/
def execIna (s : State) : Outcome State Fault Refusal := .next (s.loadA (s.a + 1))

/-- DEA (`45_implicit.md` R137). -/
def execDea (s : State) : Outcome State Fault Refusal := .next (s.loadA (s.a - 1))

/-- INX (`45_implicit.md` R138). -/
def execInx (s : State) : Outcome State Fault Refusal := .next (s.loadX (s.x + 1))

/-- DEX (`45_implicit.md` R139). -/
def execDex (s : State) : Outcome State Fault Refusal := .next (s.loadX (s.x - 1))

/-- INY (`45_implicit.md` R140). -/
def execIny (s : State) : Outcome State Fault Refusal := .next (s.loadY (s.y + 1))

/-- DEY (`45_implicit.md` R141). -/
def execDey (s : State) : Outcome State Fault Refusal := .next (s.loadY (s.y - 1))

/-- SEZ (`45_implicit.md` R142). -/
def execSez (s : State) : Outcome State Fault Refusal := .next { s with z := true }

/-- CLZ (`45_implicit.md` R143). -/
def execClz (s : State) : Outcome State Fault Refusal := .next { s with z := false }

/-- SEN (`45_implicit.md` R144). -/
def execSen (s : State) : Outcome State Fault Refusal := .next { s with n := true }

/-- CLN (`45_implicit.md` R145). -/
def execCln (s : State) : Outcome State Fault Refusal := .next { s with n := false }

/-- SEC (`45_implicit.md` R146). -/
def execSec (s : State) : Outcome State Fault Refusal := .next { s with c := true }

/-- CLC (`45_implicit.md` R147). -/
def execClc (s : State) : Outcome State Fault Refusal := .next { s with c := false }

/-- TAX (`45_implicit.md` R148). -/
def execTax (s : State) : Outcome State Fault Refusal := .next (s.loadX s.a)

/-- TXA (`45_implicit.md` R149). -/
def execTxa (s : State) : Outcome State Fault Refusal := .next (s.loadA s.x)

/-- TAY (`45_implicit.md` R150). -/
def execTay (s : State) : Outcome State Fault Refusal := .next (s.loadY s.a)

/-- TYA (`45_implicit.md` R151). -/
def execTya (s : State) : Outcome State Fault Refusal := .next (s.loadA s.y)

/-- TXY (`45_implicit.md` R152). -/
def execTxy (s : State) : Outcome State Fault Refusal := .next (s.loadY s.x)

/-- TYX (`45_implicit.md` R153). -/
def execTyx (s : State) : Outcome State Fault Refusal := .next (s.loadX s.y)

/-- PHA (`45_implicit.md` R154). -/
def execPha (s : State) : Outcome State Fault Refusal := finish (push s.a s)

/-- PHX (`45_implicit.md` R155). -/
def execPhx (s : State) : Outcome State Fault Refusal := finish (push s.x s)

/-- PHY (`45_implicit.md` R156). -/
def execPhy (s : State) : Outcome State Fault Refusal := finish (push s.y s)

/-- SetZN of a pulled byte, when the launch parameter asks for it (`45_implicit.md` R157; spec decision D12). -/
def State.pulledZN (v : Byte) (s : State) : State := if s.params.pullSetsZN then s.setZN v else s

/-- A pull: the popped byte goes to a register; an empty stack halts the step and changes no register. -/
def pull (s : State) (write : Byte → State → State) : Outcome State Fault Refusal :=
  match pop s with
  | .error h => .next h
  | .ok (v, s1) => .next ((write v s1).pulledZN v)

/-- PLA (`45_implicit.md` R157). -/
def execPla (s : State) : Outcome State Fault Refusal := pull s fun v s1 => { s1 with a := v }

/-- PLX (`45_implicit.md` R158). -/
def execPlx (s : State) : Outcome State Fault Refusal := pull s fun v s1 => { s1 with x := v }

/-- PLY (`45_implicit.md` R159). -/
def execPly (s : State) : Outcome State Fault Refusal := pull s fun v s1 => { s1 with y := v }

/-- WNL (`45_implicit.md` R160). -/
def execWnl (s : State) : Outcome State Fault Refusal := .next (s.emit [0x0A])

/-- WTB (`45_implicit.md` R161). -/
def execWtb (s : State) : Outcome State Fault Refusal := .next (s.emit [0x09])

/-- WSP (`45_implicit.md` R162). -/
def execWsp (s : State) : Outcome State Fault Refusal := .next (s.emit [0x20])

/-- A slot of the implicit class with no executable behaviour: the cause records the (translated) opcode byte, which
is the byte the numbering gives the slot (`45_implicit.md` R163 to R167, `60_exceptions.md` R210, R211). -/
def illegalSlot (op : ImplOp) (s : State) : Outcome State Fault Refusal :=
  raise (.illegalOpcode (implByte s.params.numbering op)) s

/-- RUD (`45_implicit.md` R163), reserved. -/
def execRud (s : State) : Outcome State Fault Refusal := illegalSlot .rud s

/-- RSD (`45_implicit.md` R164), reserved. -/
def execRsd (s : State) : Outcome State Fault Refusal := illegalSlot .rsd s

/-- RCH (`45_implicit.md` R165), reserved. -/
def execRch (s : State) : Outcome State Fault Refusal := illegalSlot .rch s

/-- RTX (`45_implicit.md` R166), reserved. -/
def execRtx (s : State) : Outcome State Fault Refusal := illegalSlot .rtx s

/-- The unassigned slot of the byte 0xE5 (`45_implicit.md` R167). -/
def execIllegalE5 (s : State) : Outcome State Fault Refusal := illegalSlot .illegalE5 s

/-- The unassigned slot of the byte 0xE6 (`45_implicit.md` R167). -/
def execIllegalE6 (s : State) : Outcome State Fault Refusal := illegalSlot .illegalE6 s

/-- The unassigned slot of the byte 0xE7 (`45_implicit.md` R167). -/
def execIllegalE7 (s : State) : Outcome State Fault Refusal := illegalSlot .illegalE7 s

/-- The unassigned slot of the byte 0xE8 (`45_implicit.md` R167). -/
def execIllegalE8 (s : State) : Outcome State Fault Refusal := illegalSlot .illegalE8 s

/-- The unassigned slot of the byte 0xE9 (`45_implicit.md` R167). -/
def execIllegalE9 (s : State) : Outcome State Fault Refusal := illegalSlot .illegalE9 s

/-- The unassigned slot of the byte 0xEA (`45_implicit.md` R167). -/
def execIllegalEA (s : State) : Outcome State Fault Refusal := illegalSlot .illegalEA s

/-- The unassigned slot of the byte 0xEB (`45_implicit.md` R167). -/
def execIllegalEB (s : State) : Outcome State Fault Refusal := illegalSlot .illegalEB s

/-- The unassigned slot of the byte 0xEC (`45_implicit.md` R167). -/
def execIllegalEC (s : State) : Outcome State Fault Refusal := illegalSlot .illegalEC s

/-- The unassigned slot of the byte 0xED (`45_implicit.md` R167). -/
def execIllegalED (s : State) : Outcome State Fault Refusal := illegalSlot .illegalED s

/-- The unassigned slot of the byte 0xEE (`45_implicit.md` R167). -/
def execIllegalEE (s : State) : Outcome State Fault Refusal := illegalSlot .illegalEE s

/-- The unassigned slot of the byte 0xEF (`45_implicit.md` R167). -/
def execIllegalEF (s : State) : Outcome State Fault Refusal := illegalSlot .illegalEF s

end Sys2Proof.Machine
end

