-- ==== Sys2Proof/Machine/LoadStore.lean ====
section
/-! DEFINITION. Loads and stores (`41_load_store.md`). Stores change no flag (spec decision D11). -/

namespace Sys2Proof.Machine

open Host (Outcome)

/-- LDA (`41_load_store.md` R90). -/
def execLda (o : Operand) (s : State) : Outcome State Fault Refusal := reading o s fun v => s.loadA v

/-- STA (`41_load_store.md` R91). -/
def execSta (o : Operand) (s : State) : Outcome State Fault Refusal := storing o s s.a

/-- LDX (`41_load_store.md` R92): the old X forms the address. -/
def execLdx (o : Operand) (s : State) : Outcome State Fault Refusal := reading o s fun v => s.loadX v

/-- STX (`41_load_store.md` R93). -/
def execStx (o : Operand) (s : State) : Outcome State Fault Refusal := storing o s s.x

/-- LDY (`41_load_store.md` R94): the old Y forms the address. -/
def execLdy (o : Operand) (s : State) : Outcome State Fault Refusal := reading o s fun v => s.loadY v

/-- STY (`41_load_store.md` R95). -/
def execSty (o : Operand) (s : State) : Outcome State Fault Refusal := storing o s s.y

end Sys2Proof.Machine
end

