-- ==== Sys2Proof/Machine/LogicShift.lean ====
section
/-! DEFINITION. Logic, shifts and rotates on an addressed byte (`42_logic_shift.md`). The logic operations leave C
(spec decision D11). -/

namespace Sys2Proof.Machine

open Host (Outcome)

/-- AND (`42_logic_shift.md` R100). -/
def execAnd (o : Operand) (s : State) : Outcome State Fault Refusal := reading o s fun v => s.loadA (s.a &&& v)

/-- ORA (`42_logic_shift.md` R101). -/
def execOra (o : Operand) (s : State) : Outcome State Fault Refusal := reading o s fun v => s.loadA (s.a ||| v)

/-- EOR (`42_logic_shift.md` R102). -/
def execEor (o : Operand) (s : State) : Outcome State Fault Refusal := reading o s fun v => s.loadA (s.a ^^^ v)

/-- A shift or rotate of the addressed byte: the result is stored, C takes the bit shifted out, Z and N follow the
result; the Carry read is the one before the instruction. -/
def shiftMemory (kind : ShiftKind) (o : Operand) (s : State) : Outcome State Fault Refusal :=
  modifying o s (fun v => (shift kind v s.c).1)
    fun v s1 => (s1.setC (shift kind v s.c).2).setZN (shift kind v s.c).1

/-- LSR (`42_logic_shift.md` R103). -/
def execLsr (o : Operand) (s : State) : Outcome State Fault Refusal := shiftMemory .lsr o s

/-- ASL (`42_logic_shift.md` R104). -/
def execAsl (o : Operand) (s : State) : Outcome State Fault Refusal := shiftMemory .asl o s

/-- ROR (`42_logic_shift.md` R105). -/
def execRor (o : Operand) (s : State) : Outcome State Fault Refusal := shiftMemory .ror o s

/-- ROL (`42_logic_shift.md` R106). -/
def execRol (o : Operand) (s : State) : Outcome State Fault Refusal := shiftMemory .rol o s

end Sys2Proof.Machine
end

