-- ==== Sys2Proof/Machine/Output.lean ====
section
/-! DEFINITION. The output instructions with an operand (`44_output.md`). They change no register, no flag and no byte of
memory (R121). -/

namespace Sys2Proof.Machine

open Host (Outcome)

/-- The ASCII code of a decimal digit (`44_output.md` R122, G4). -/
def digit (n : Nat) : Byte := BitVec.ofNat 8 (0x30 + n % 10)

/-- `Dec(n)` for `n` below 1000: the fewest decimal digits (`44_output.md` R122; spec decision D13). -/
def decimal (n : Nat) : List Byte :=
  if n < 10 then [digit n]
  else if n < 100 then [digit (n / 10), digit n]
  else [digit (n / 100), digit (n / 10), digit n]

/-- `Dec` of a byte read as two's complement: a minus sign before the digits of a negative number
(`44_output.md` R122, R124; G5). -/
def signedDecimal (v : Byte) : List Byte :=
  if v.toNat < 128 then decimal v.toNat else 0x2D :: decimal (256 - v.toNat)

/-- The bytes from index `a` up to the first zero byte, or none when the next `fuel` bytes hold no zero
(`44_output.md` R126). -/
def stringFrom (m : Memory) : Nat → Nat → Option (List Byte)
  | 0, _ => none
  | fuel + 1, a =>
    if m.byteAt a = 0 then some [] else (stringFrom m fuel (a + 1)).map fun bs => m.byteAt a :: bs

/-- WUD (`44_output.md` R123). -/
def execWud (o : Operand) (s : State) : Outcome State Fault Refusal := reading o s fun v => s.emit (decimal v.toNat)

/-- WSD (`44_output.md` R124). -/
def execWsd (o : Operand) (s : State) : Outcome State Fault Refusal := reading o s fun v => s.emit (signedDecimal v)

/-- WCH (`44_output.md` R125). -/
def execWch (o : Operand) (s : State) : Outcome State Fault Refusal := reading o s fun v => s.emit [v]

/-- WTX (`44_output.md` R126): the run from the effective address to the first zero byte, which is not emitted. The scan
ends at the end of memory and does not wrap; without a zero byte it halts and emits nothing (spec decision D14). -/
def execWtx (o : Operand) (s : State) : Outcome State Fault Refusal :=
  withOperand o s fun ea =>
    match stringFrom s.mem (s.mem.limit - ea.toNat) ea.toNat with
    | some bs => .next (s.emit bs)
    | none => raise (.outOfBounds s.mem.limit) s

end Sys2Proof.Machine
end

