-- ==== Sys2Proof/Machine/Dispatch.lean ====
section
/-! DEFINITION. The meaning of every instruction: one arm per constructor of `Instr`. -/

namespace Sys2Proof.Machine

open Host (Outcome)

-- The execute phase of the step (`40_step_and_addressing.md` R70, phase 4); `pc` is the address of the next instruction.
def exec (i : Instr) (s : State) : Outcome State Fault Refusal :=
  match i with
  | .lda o => Sys2Proof.Machine.execLda o s
  | .sta o => Sys2Proof.Machine.execSta o s
  | .ldx o => Sys2Proof.Machine.execLdx o s
  | .stx o => Sys2Proof.Machine.execStx o s
  | .ldy o => Sys2Proof.Machine.execLdy o s
  | .sty o => Sys2Proof.Machine.execSty o s
  | .and o => Sys2Proof.Machine.execAnd o s
  | .ora o => Sys2Proof.Machine.execOra o s
  | .eor o => Sys2Proof.Machine.execEor o s
  | .lsr o => Sys2Proof.Machine.execLsr o s
  | .asl o => Sys2Proof.Machine.execAsl o s
  | .ror o => Sys2Proof.Machine.execRor o s
  | .rol o => Sys2Proof.Machine.execRol o s
  | .adc o => Sys2Proof.Machine.execAdc o s
  | .sbc o => Sys2Proof.Machine.execSbc o s
  | .inc o => Sys2Proof.Machine.execInc o s
  | .dec o => Sys2Proof.Machine.execDec o s
  | .cmp o => Sys2Proof.Machine.execCmp o s
  | .cpx o => Sys2Proof.Machine.execCpx o s
  | .cpy o => Sys2Proof.Machine.execCpy o s
  | .wud o => Sys2Proof.Machine.execWud o s
  | .wsd o => Sys2Proof.Machine.execWsd o s
  | .wch o => Sys2Proof.Machine.execWch o s
  | .wtx o => Sys2Proof.Machine.execWtx o s
  | .hlt => Sys2Proof.Machine.execHlt s
  | .rts => Sys2Proof.Machine.execRts s
  | .lsa => Sys2Proof.Machine.execLsa s
  | .asa => Sys2Proof.Machine.execAsa s
  | .rra => Sys2Proof.Machine.execRra s
  | .rla => Sys2Proof.Machine.execRla s
  | .ina => Sys2Proof.Machine.execIna s
  | .dea => Sys2Proof.Machine.execDea s
  | .inx => Sys2Proof.Machine.execInx s
  | .dex => Sys2Proof.Machine.execDex s
  | .iny => Sys2Proof.Machine.execIny s
  | .dey => Sys2Proof.Machine.execDey s
  | .sez => Sys2Proof.Machine.execSez s
  | .clz => Sys2Proof.Machine.execClz s
  | .sen => Sys2Proof.Machine.execSen s
  | .cln => Sys2Proof.Machine.execCln s
  | .sec => Sys2Proof.Machine.execSec s
  | .clc => Sys2Proof.Machine.execClc s
  | .tax => Sys2Proof.Machine.execTax s
  | .txa => Sys2Proof.Machine.execTxa s
  | .tay => Sys2Proof.Machine.execTay s
  | .tya => Sys2Proof.Machine.execTya s
  | .txy => Sys2Proof.Machine.execTxy s
  | .tyx => Sys2Proof.Machine.execTyx s
  | .pha => Sys2Proof.Machine.execPha s
  | .phx => Sys2Proof.Machine.execPhx s
  | .phy => Sys2Proof.Machine.execPhy s
  | .pla => Sys2Proof.Machine.execPla s
  | .plx => Sys2Proof.Machine.execPlx s
  | .ply => Sys2Proof.Machine.execPly s
  | .wnl => Sys2Proof.Machine.execWnl s
  | .wtb => Sys2Proof.Machine.execWtb s
  | .wsp => Sys2Proof.Machine.execWsp s
  | .rud => Sys2Proof.Machine.execRud s
  | .rsd => Sys2Proof.Machine.execRsd s
  | .rch => Sys2Proof.Machine.execRch s
  | .rtx => Sys2Proof.Machine.execRtx s
  | .illegalE5 => Sys2Proof.Machine.execIllegalE5 s
  | .illegalE6 => Sys2Proof.Machine.execIllegalE6 s
  | .illegalE7 => Sys2Proof.Machine.execIllegalE7 s
  | .illegalE8 => Sys2Proof.Machine.execIllegalE8 s
  | .illegalE9 => Sys2Proof.Machine.execIllegalE9 s
  | .illegalEA => Sys2Proof.Machine.execIllegalEA s
  | .illegalEB => Sys2Proof.Machine.execIllegalEB s
  | .illegalEC => Sys2Proof.Machine.execIllegalEC s
  | .illegalED => Sys2Proof.Machine.execIllegalED s
  | .illegalEE => Sys2Proof.Machine.execIllegalEE s
  | .illegalEF => Sys2Proof.Machine.execIllegalEF s
  | .bsr t => Sys2Proof.Machine.execBsr t s
  | .bra t => Sys2Proof.Machine.execBra t s
  | .bne t => Sys2Proof.Machine.execBne t s
  | .beq t => Sys2Proof.Machine.execBeq t s
  | .bpl t => Sys2Proof.Machine.execBpl t s
  | .bmi t => Sys2Proof.Machine.execBmi t s
  | .bcc t => Sys2Proof.Machine.execBcc t s
  | .bcs t => Sys2Proof.Machine.execBcs t s

end Sys2Proof.Machine
end

