-- ==== Sys2Proof/Machine/Place.lean ====
section
/-! DEFINITION. Putting the bytes of one instruction where the next step fetches, for `State.withFetchWord`
(log entry 8). -/

namespace Sys2Proof.Machine

/-- The bytes stored in live memory from an address on; no translator event, since no instruction stores them
(`50_translator.md` R195). -/
def Memory.storeBytes (m : Memory) (a : Addr) : List Byte → Memory
  | [] => m
  | b :: bs => (m.store a b).storeBytes (a + 1) bs

/-- Every address of a run of bytes is in bounds. -/
def Memory.covers (m : Memory) (a : Addr) : Nat → Bool
  | 0 => true
  | k + 1 => m.inBounds a && m.covers (a + 1) k

/-- The map with one entry the identity, so that the translated byte is the byte stored. -/
def Translator.passing (t : Translator) (op : Byte) : Translator := { t with map := t.map.set op.toNat op }

/-- The bytes stored at `pc`. What else their fetch needs, and is set only so far as it needs it: the machine is
running; a bounded memory that does not reach to the last byte becomes the full shape; an attached translator maps the
opcode byte to itself; the numbering is the default one. -/
def placeBytes (bytes : List Byte) (s : State) : State :=
  let m := if s.mem.covers s.pc bytes.length then s.mem else { s.mem with size := 0 }
  { s with
    mem := m.storeBytes s.pc bytes
    status := .running
    translator := s.translator.map fun t => t.passing (bytes.headD 0)
    params := { s.params with numbering := Numbering.default } }

end Sys2Proof.Machine
end

