-- ==== Sys2Proof/Machine/Step.lean ====
section
/-! DEFINITION. The single-step operation (`40_step_and_addressing.md` R70), and the placing of one instruction where the
next step fetches. -/

namespace Sys2Proof.Machine

open Host (Outcome)

/-- One step: a halted machine has none (`40_step_and_addressing.md` R86); a running one fetches, decodes and executes
one instruction, and answers the state in which the step ended, running or halted (R85). -/
def step (s : State) : Outcome State Fault Refusal :=
  match s.status with
  | .halted _ => .fault .noStepWhenHalted
  | .running =>
    match fetchInstr s with
    | .error h => .next h
    | .ok (i, s1) => exec i s1

/-- The instruction of a table word stored at `pc`, so that the next step fetches and runs exactly it (log entry 8).
See `placeBytes` in `Machine/Place.lean` for what else the fetch needs. -/
def State.withFetchWord (s : State) (nbits w : Nat) : State := placeBytes (tableBytes nbits w) s

end Sys2Proof.Machine
end

