-- ==== Sys2Proof/Machine/Launch.lean ====
section
/-! DEFINITION. What the driver does before the first step (`70_reset_and_hazards.md` R232, `51_interfaces.md` R209): the
host's memory ports (`20_memory.md` R35), the translation table (`50_translator.md` R198), creation (`51_interfaces.md`
R201, `10_state.md` R24) and attachment (`50_translator.md` R191). None is a move during a run (spec decision D22). -/

namespace Sys2Proof.Machine

/-- The port `create(size, initial_bytes)`: the initial bytes from address 0, every other byte as an unlisted one
(log entry 4). Refused: a size above 65536, and initial bytes that the memory has no room for (log entry 20). -/
def Memory.create (size : Nat) (initial : List Byte) : Option Memory :=
  let m : Memory := { size := size, cells := [] }
  if size ≤ 65536 ∧ initial.length ≤ m.limit then some (m.storeBytes 0 initial) else none

/-- The port `load(at, bytes)`: fails when the bytes would exceed the bounds; a load of the full shape across address
0xFFFF is refused (spec decision D26). -/
def Memory.load (m : Memory) (origin : Addr) (bytes : List Byte) : Option Memory :=
  if origin.toNat + bytes.length ≤ m.limit then some (m.storeBytes origin bytes) else none

/-- The port `size()`: 0 for the full shape, the byte count otherwise. -/
def Memory.reportedSize (m : Memory) : Nat := m.size

/-- The port clone: a deep copy with the same shape, size and contents. -/
def Memory.clone (m : Memory) : Memory := m

/-- A growing memory before the run: exactly the bytes appended so far (`20_memory.md` R35). -/
abbrev Growing := List Byte

/-- The port `append(bytes)`: fails once the total size would exceed 65536. -/
def Growing.append (g : Growing) (bytes : List Byte) : Option Growing :=
  if g.length + bytes.length ≤ 65536 then some (g ++ bytes : List Byte) else none

/-- The port `append_byte(byte)`. -/
def Growing.appendByte (g : Growing) (b : Byte) : Option Growing := Growing.append g [b]

/-- The memory a growing one is for a run: bounded, of the number of bytes stored. One that holds no byte cannot host a
CPU (`20_memory.md` R31, `90_conflicts.md` C5, spec decision D20). -/
def Growing.sealed (g : Growing) : Option Memory :=
  if g.length = 0 then none else Memory.create g.length g

/-- The identity table (`10_state.md` R19). -/
def identityTable : Vector Byte 256 := ⟨((List.range 256).map (BitVec.ofNat 8)).toArray, by simp⟩

/-- `LoadTable(pairs)`: identity first, then each pair in text order (`50_translator.md` R198). -/
def tableOfPairs (pairs : List (Byte × Byte)) : Vector Byte 256 :=
  pairs.foldl (fun t p => t.set p.1.toNat p.2) identityTable

/-- The pairs of a token list, none when it is malformed: an odd count, a token above 0xFF, or an unparsable token,
which stands here as `none` (`50_translator.md` R198; how text makes tokens is out of scope, N16). -/
def pairsOfTokens : List (Option Nat) → Option (List (Byte × Byte))
  | [] => some []
  | some f :: some t :: rest =>
    if f ≤ 0xFF ∧ t ≤ 0xFF then (pairsOfTokens rest).map fun ps => (BitVec.ofNat 8 f, BitVec.ofNat 8 t) :: ps
    else none
  | _ => none

/-- Loading a table from tokens: the table, and whether an error is signalled; malformed input leaves the identity
(`50_translator.md` R198). -/
def loadTable (tokens : List (Option Nat)) : Vector Byte 256 × Bool :=
  match pairsOfTokens tokens with
  | some ps => (tableOfPairs ps, false)
  | none => (identityTable, true)

/-- The arguments of a launch: the rows of `00_scope.md` R4 marked "argument" or open. -/
structure Launch where
  /-- the memory the driver lends, its shape and its contents: `size` and `mem0` -/
  mem : Memory
  pc0 : Addr
  a0 : Byte
  x0 : Byte
  y0 : Byte
  z0 : Bool
  n0 : Bool
  c0 : Bool
  /-- the stack entries, unspecified by the spec and never observed before they are written (R24, U8) -/
  stack0 : Vector Byte 256
  /-- the remap table `map0`, when a translator is attached -/
  map0 : Option (Vector Byte 256)
  /-- `MM_ORDER`, `IMPL_MAP`, `BR_ORDER`, `PULL_SETS_ZN` and `tracer` -/
  params : Params
  deriving DecidableEq, Repr

/-- The arguments have the legal values of `00_scope.md` R4: `size` is at most 65536 and the contents stand in their
canonical form, and the three numbering parameters are bijections. Every other row admits any value of its type, but for
`pc0`, which `Launch.create` checks. -/
def Launch.legal (l : Launch) : Bool := l.mem.wf && l.params.numbering.wf

/-- Creation: for legal arguments it fails exactly when `pc0` is out of bounds (`51_interfaces.md` R201); otherwise the
state is that of `10_state.md` R24, without a translator. No machine is launched with arguments that are not legal
(`00_scope.md` R4; log entry 20). -/
def Launch.create (l : Launch) : Option State :=
  if l.legal && l.mem.inBounds l.pc0 then
    some
      { a := l.a0, x := l.x0, y := l.y0, z := l.z0, n := l.n0, c := l.c0, pc := l.pc0, sp := 0, stack := l.stack0,
        mem := l.mem, status := .running, out := [], translator := none, params := l.params }
  else none

/-- Attachment: both shadows become clones of live memory as it is now (`50_translator.md` R191). A CPU has at most one
translator (R190), so a second attachment is refused. -/
def State.attach (table : Vector Byte 256) (s : State) : Option State :=
  match s.translator with
  | none => some { s with translator := some { map := table, input := s.mem.clone, output := s.mem.clone } }
  | some _ => none

/-- The launch sequence from a filled memory on: creation, then attachment when a table is given
(`70_reset_and_hazards.md` R232, steps 4 and 5). -/
def Launch.start (l : Launch) : Option State :=
  match l.create, l.map0 with
  | none, _ => none
  | some s, none => some s
  | some s, some table => s.attach table

/-- The launch that `State.reset` stands for (log entries 3 to 7 and 23). -/
def Launch.reset : Launch where
  mem := { size := Config.resetSize, cells := [] }
  pc0 := Config.resetPc
  a0 := Config.resetRegister
  x0 := Config.resetRegister
  y0 := Config.resetRegister
  z0 := Config.resetFlag
  n0 := Config.resetFlag
  c0 := Config.resetFlag
  stack0 := Vector.replicate 256 Config.resetStackEntry
  map0 := none
  params :=
    { numbering := Numbering.default, pullSetsZN := Config.defaultPullSetsZN, tracer := Config.resetTracer }

end Sys2Proof.Machine
end

