-- ==== Sys2Proof/Machine/OpcodeTable.lean ====
section
/-! DEFINITION. The opcode-table component (`30_encoding.md` R63, R64): mnemonic to opcode with the mode check, and opcode
back to mnemonic. A mnemonic is a list of characters. -/

namespace Sys2Proof.Machine

/-- The two errors of a lookup (`30_encoding.md` R64). -/
inductive LookupError where
  | unknownMnemonic
  | illegalMode
  deriving DecidableEq, Repr

/-- The mnemonic of a multimode operation (`30_encoding.md` R53). -/
def mmName : MmOp → List Char
  | .lda => ['L', 'D', 'A']
  | .sta => ['S', 'T', 'A']
  | .ldx => ['L', 'D', 'X']
  | .stx => ['S', 'T', 'X']
  | .ldy => ['L', 'D', 'Y']
  | .sty => ['S', 'T', 'Y']
  | .and => ['A', 'N', 'D']
  | .ora => ['O', 'R', 'A']
  | .eor => ['E', 'O', 'R']
  | .lsr => ['L', 'S', 'R']
  | .asl => ['A', 'S', 'L']
  | .ror => ['R', 'O', 'R']
  | .rol => ['R', 'O', 'L']
  | .adc => ['A', 'D', 'C']
  | .sbc => ['S', 'B', 'C']
  | .inc => ['I', 'N', 'C']
  | .dec => ['D', 'E', 'C']
  | .cmp => ['C', 'M', 'P']
  | .cpx => ['C', 'P', 'X']
  | .cpy => ['C', 'P', 'Y']
  | .wud => ['W', 'U', 'D']
  | .wsd => ['W', 'S', 'D']
  | .wch => ['W', 'C', 'H']
  | .wtx => ['W', 'T', 'X']

/-- The mnemonic of a slot of the implicit class; an unassigned slot has none (`30_encoding.md` R55). -/
def implName : ImplOp → Option (List Char)
  | .hlt => some ['H', 'L', 'T']
  | .rts => some ['R', 'T', 'S']
  | .lsa => some ['L', 'S', 'A']
  | .asa => some ['A', 'S', 'A']
  | .rra => some ['R', 'R', 'A']
  | .rla => some ['R', 'L', 'A']
  | .ina => some ['I', 'N', 'A']
  | .dea => some ['D', 'E', 'A']
  | .inx => some ['I', 'N', 'X']
  | .dex => some ['D', 'E', 'X']
  | .iny => some ['I', 'N', 'Y']
  | .dey => some ['D', 'E', 'Y']
  | .sez => some ['S', 'E', 'Z']
  | .clz => some ['C', 'L', 'Z']
  | .sen => some ['S', 'E', 'N']
  | .cln => some ['C', 'L', 'N']
  | .sec => some ['S', 'E', 'C']
  | .clc => some ['C', 'L', 'C']
  | .tax => some ['T', 'A', 'X']
  | .txa => some ['T', 'X', 'A']
  | .tay => some ['T', 'A', 'Y']
  | .tya => some ['T', 'Y', 'A']
  | .txy => some ['T', 'X', 'Y']
  | .tyx => some ['T', 'Y', 'X']
  | .pha => some ['P', 'H', 'A']
  | .phx => some ['P', 'H', 'X']
  | .phy => some ['P', 'H', 'Y']
  | .pla => some ['P', 'L', 'A']
  | .plx => some ['P', 'L', 'X']
  | .ply => some ['P', 'L', 'Y']
  | .wnl => some ['W', 'N', 'L']
  | .wtb => some ['W', 'T', 'B']
  | .wsp => some ['W', 'S', 'P']
  | .rud => some ['R', 'U', 'D']
  | .rsd => some ['R', 'S', 'D']
  | .rch => some ['R', 'C', 'H']
  | .rtx => some ['R', 'T', 'X']
  | .illegalE5 => none
  | .illegalE6 => none
  | .illegalE7 => none
  | .illegalE8 => none
  | .illegalE9 => none
  | .illegalEA => none
  | .illegalEB => none
  | .illegalEC => none
  | .illegalED => none
  | .illegalEE => none
  | .illegalEF => none

/-- The mnemonic of a branch type (`30_encoding.md` R59). -/
def brName : BrOp → List Char
  | .bsr => ['B', 'S', 'R']
  | .bra => ['B', 'R', 'A']
  | .bne => ['B', 'N', 'E']
  | .beq => ['B', 'E', 'Q']
  | .bpl => ['B', 'P', 'L']
  | .bmi => ['B', 'M', 'I']
  | .bcc => ['B', 'C', 'C']
  | .bcs => ['B', 'C', 'S']

/-- Mnemonic to the class and the opcode byte with its mode bits zero; matching is case-insensitive and exact
(`30_encoding.md` R63). -/
def placeholder (m : Numbering) (name : List Char) : Option (OpClass × Byte) :=
  let up := name.map Char.toUpper
  match MmOp.all.find? (fun o => decide (mmName o = up)) with
  | some o => some (.multimode, BitVec.ofNat 8 (mmBase m o))
  | none =>
    match ImplOp.all.find? (fun o => decide (implName o = some up)) with
    | some o => some (.implicit, implByte m o)
    | none =>
      match BrOp.all.find? (fun o => decide (brName o = up)) with
      | some o => some (.branch, BitVec.ofNat 8 (brBase m o))
      | none => none

/-- The value of a candidate mode in the mode bits of its class (`30_encoding.md` R54, R58). -/
def candidateBits : Candidate → Nat
  | .immediate => 0
  | .absolute => 1
  | .zeroPage => 2
  | .absoluteX => 3
  | .zeroPageX => 4
  | .absoluteY => 5
  | .zeroPageY => 6
  | .indirectY => 7
  | .relative => 0

/-- The lookup with the legality check: the opcode byte, or one of two distinct errors (`30_encoding.md` R64). -/
def lookupOpcode (m : Numbering) (name : List Char) (mode : Option Candidate) : Except LookupError Byte :=
  match placeholder m name with
  | none => .error .unknownMnemonic
  | some (cls, base) =>
    if cls.admits mode then .ok (base + BitVec.ofNat 8 ((mode.map candidateBits).getD 0)) else .error .illegalMode

/-- The mnemonic of a form. -/
def formName : Form → Option (List Char)
  | .mm op _ => some (mmName op)
  | .impl op => implName op
  | .br op _ => some (brName op)

/-- The reverse lookup: opcode byte to mnemonic, whatever its mode bits (`30_encoding.md` R63). -/
def mnemonicOf (m : Numbering) (op : Byte) : Option (List Char) := formName (formOf m op 0 0)

end Sys2Proof.Machine
end

