-- ==== Sys2Proof/Safety.lean ====
section
/-! DEFINITION. What counts as a state a run may be in, a final state and a faulted one, in the terms statements use. -/

namespace Sys2Proof.Machine

/-- The orderly end of a run (`60_exceptions.md` R217). -/
def State.final (s : State) : Bool := decide (s.status = .halted .hlt)

/-- A state that a run never recovers from and that is no final state: halted for one of the four faults
(`60_exceptions.md` R217). -/
def State.faulted (s : State) : Bool :=
  match s.status with
  | .running => false
  | .halted .hlt => false
  | .halted _ => true

/-- A safe state: running, or ended in good order. -/
def State.safe (s : State) : Bool := !s.faulted

/-- The shadows are in canonical form and have the live memory's shape (`50_translator.md` R191). -/
def Translator.fits (t : Translator) (m : Memory) : Bool :=
  t.input.wf && t.output.wf && decide (t.input.size = m.size) && decide (t.output.size = m.size)

/-- The machine invariant: the stack index lies between 0 and 256 (`10_state.md` R17); live memory and the shadows are in
canonical form, of one shape (`20_memory.md` R31, `50_translator.md` R191); `pc` is the address of a byte, or the first
address beyond a bounded memory (`10_state.md` R13, `90_conflicts.md` C10); the numbering is a legal parameter
(`00_scope.md` R4). -/
def State.inv (s : State) : Bool :=
  decide (s.sp ≤ 256) && s.mem.wf && (s.translator.all fun t => t.fits s.mem)
    && decide (s.pc.toNat ≤ s.mem.limit) && s.params.numbering.wf

/-- The memory side of an instruction that stores one byte: live memory reads `v` at `ea` and as before everywhere else;
an attached translator has the byte in `output` alone (`20_memory.md` R34, R36; `50_translator.md` R194). -/
def StoredByte (s t : State) (ea : Addr) (v : Byte) : Prop :=
  t.mem.read ea = v ∧ (∀ b, b ≠ ea → t.mem.read b = s.mem.read b) ∧ t.mem.size = s.mem.size ∧
    match s.translator, t.translator with
    | none, none => True
    | some k, some l =>
      l.map = k.map ∧ l.input = k.input ∧ (k.output.inBounds ea = true → l.output.read ea = v)
        ∧ l.output.size = k.output.size ∧ ∀ b, b ≠ ea → l.output.read b = k.output.read b
    | _, _ => False

end Sys2Proof.Machine
end

