-- ==== Sys2Proof/Certificates/Slice0/Obligations.lean ====
section
/-! DEFINITION. The statements about the model, for the provers. A statement about an instruction is about its execution
phase, in which `pc` is the address of the next instruction; `StepRunsTheDecodedInstruction` carries it to a step. -/

open Sys2Proof Sys2Proof.Machine Host

/-- No bit of an encoding is dropped, for every legal value of `MM_ORDER`, `IMPL_MAP`, `BR_ORDER` (log entry 9). Rests on `30_encoding.md` R50 to R60. -/
def Obligations.DecodeOfEncode : Prop :=
  ∀ m : Numbering, m.wf = true → ∀ (i : Instr) (rest : List Byte),
    decodeWith m (encodeWith m i ++ rest) = .ok (i, rest)

/-- The other direction of the round trip: no two instructions share an encoding (`40_step_and_addressing.md` R73). -/
def Obligations.EncodeOfDecode : Prop :=
  ∀ m : Numbering, m.wf = true → ∀ (bytes rest : List Byte) (i : Instr),
    decodeWith m bytes = .ok (i, rest) → encodeWith m i ++ rest = bytes

/-- `30_encoding.md` R61, for every byte list that begins with an opcode byte. -/
def Obligations.DecodeTakesTheLengthOfTheOpcode : Prop :=
  ∀ (m : Numbering) (op : Byte) (rest : List Byte),
    let len :=
      if op.toNat < 0xC0 then (if op.toNat % 8 = 1 ∨ op.toNat % 8 = 3 ∨ op.toNat % 8 = 5 then 3 else 2)
      else if op.toNat < 0xF0 then 1 else if op.toNat % 2 = 1 then 3 else 2
    if len ≤ (op :: rest).length then ∃ i, decodeWith m (op :: rest) = .ok (i, (op :: rest).drop len)
    else decodeWith m (op :: rest) = .error .missingOperand

/-- `30_encoding.md` R51: the ranges and the bit patterns of the three classes. -/
def Obligations.ClassOfOpcodeByRange : Prop :=
  ∀ (m : Numbering) (op b1 b2 : Byte),
    ((formOf m op b1 b2).opClass = .multimode ↔ op.toNat < 0xC0)
      ∧ ((formOf m op b1 b2).opClass = .multimode ↔ op.extractLsb' 6 2 ≠ 0b11#2)
      ∧ ((formOf m op b1 b2).opClass = .implicit ↔ 0xC0 ≤ op.toNat ∧ op.toNat < 0xF0)
      ∧ ((formOf m op b1 b2).opClass = .implicit ↔ op.extractLsb' 6 2 = 0b11#2 ∧ op.extractLsb' 4 4 ≠ 0b1111#4)
      ∧ ((formOf m op b1 b2).opClass = .branch ↔ 0xF0 ≤ op.toNat)
      ∧ ((formOf m op b1 b2).opClass = .branch ↔ op.extractLsb' 4 4 = 0b1111#4)
      ∧ ((formOf m op b1 b2).opClass = .multimode → opLength op = 2 ∨ opLength op = 3)
      ∧ ((formOf m op b1 b2).opClass = .implicit → opLength op = 1)
      ∧ ((formOf m op b1 b2).opClass = .branch → opLength op = 2 ∨ opLength op = 3)

/-- `30_encoding.md` R52 and R54, under every numbering. -/
def Obligations.MultimodeFieldsOfTheOpcode : Prop :=
  ∀ (m : Numbering) (opr mode : Nat) (b1 b2 : Byte) (h : opr < 24), mode < 8 →
    ∃ o : Operand, o.mode = mode
      ∧ formOf m (BitVec.ofNat 8 (opr * 8 + mode)) b1 b2 = .mm m.mm[opr] o
      ∧ ((BitVec.ofNat 8 (opr * 8 + mode) : Byte).extractLsb' 3 5).toNat = opr
      ∧ ((BitVec.ofNat 8 (opr * 8 + mode) : Byte).extractLsb' 0 3).toNat = mode
      ∧ o.bytes = (if opLength (BitVec.ofNat 8 (opr * 8 + mode)) = 3 then [b1, b2] else [b1])

/-- `30_encoding.md` R58, and the two target forms of `46_branch.md` R170, R171. That a displacement is two's complement is
general knowledge, G5 (log entry 18), that the sum is modulo 65536 is spec decision D10 (log entry 14). When a branch
executes, `pc` is the address after its last byte. -/
def Obligations.BranchFieldsOfTheOpcode : Prop :=
  ∀ (m : Numbering) (btype : Nat) (b1 b2 : Byte) (h : btype < 8),
    (formOf m (BitVec.ofNat 8 (0xF0 + btype * 2)) b1 b2 = .br m.br[btype] (.rel b1)
      ∧ opLength (BitVec.ofNat 8 (0xF0 + btype * 2)) = 2)
      ∧ (∃ a : Addr, a.toNat = b2.toNat * 256 + b1.toNat
          ∧ formOf m (BitVec.ofNat 8 (0xF0 + btype * 2 + 1)) b1 b2 = .br m.br[btype] (.abs a)
          ∧ opLength (BitVec.ofNat 8 (0xF0 + btype * 2 + 1)) = 3)
      ∧ ∀ (s : State) (a : Addr), resolveTarget (.abs a) s = a
          ∧ ((resolveTarget (.rel b1) s).toNat : Int)
              = ((s.pc.toNat : Int) + (if b1.toNat < 128 then (b1.toNat : Int) else (b1.toNat : Int) - 256)) % 65536

/-- Words of the default opcode map, which is the spec's own choice of numbers (D1, D2, D5; log entry 9). -/
def Obligations.WordsOfTheDefaultMap : Prop :=
  decode [0x00, 0x05] = .ok (.lda (.imm 0x05), [])
    ∧ decode [0x09, 0x00, 0x02] = .ok (.sta (.abs 0x0200), [])
    ∧ decode [0x07, 0x80] = .ok (.lda (.indY 0x80), [])
    ∧ decode [0x5C, 0xF0] = .ok (.ror (.zpX 0xF0), [])
    ∧ decode [0x9D, 0x34, 0x12] = .ok (.cpy (.absY 0x1234), [])
    ∧ decode [0xC1] = .ok (.rts, [])
    ∧ decode [0xDB] = .ok (.pla, [])
    ∧ decode [0xE1] = .ok (.rud, [])
    ∧ decode [0xEF] = .ok (.illegalEF, [])
    ∧ decode [0xF4, 0xFA] = .ok (.bne (.rel 0xFA), [])
    ∧ decode [0xF1, 0x00, 0x03] = .ok (.bsr (.abs 0x0300), [])
    ∧ decode [0xBB, 0xF0, 0xFF] = .ok (.wtx (.absX 0xFFF0), [])

/-- How the per-instruction statements reach a run (`40_step_and_addressing.md` R70). -/
def Obligations.StepRunsTheDecodedInstruction : Prop :=
  ∀ (s : State) (op : Byte) (args : List Byte) (i : Instr),
    s.status = .running → decodeWith s.params.numbering (op :: args) = .ok (i, []) → i.form.wf = true →
    s.mem.inBounds s.pc = true → s.translate (s.mem.read s.pc) = op →
    (∀ (k : Nat) (h : k < args.length), s.mem.inBounds (s.pc + 1 + BitVec.ofNat 16 k) = true
      ∧ s.mem.read (s.pc + 1 + BitVec.ofNat 16 k) = args[k]) →
    step s = exec i ((s.noteOpcode s.pc op).withPc (s.pc + 1 + BitVec.ofNat 16 args.length))

/-- `40_step_and_addressing.md` R72; the values after the fault are spec decision D17 (U5, log entry 17). -/
def Obligations.FetchOutOfBoundsHalts : Prop :=
  (∀ s : State, s.status = .running → s.mem.inBounds s.pc = false →
      step s = .next { s with status := .halted (.outOfBounds s.pc.toNat) })
    ∧ ∀ (s : State) (k : Nat), s.status = .running →
      1 ≤ k → k < opLength (s.translate (s.mem.read s.pc)) →
      (∀ j, j < k → s.mem.inBounds (s.pc + BitVec.ofNat 16 j) = true) →
      s.mem.inBounds (s.pc + BitVec.ofNat 16 k) = false →
      step s = .next
        { s.noteOpcode s.pc (s.translate (s.mem.read s.pc)) with
          pc := s.pc + BitVec.ofNat 16 k
          status := .halted (.outOfBounds (s.pc + BitVec.ofNat 16 k).toNat) }

/-- Spec decision D21, "stuck" (log entry 2). -/
def Obligations.HaltedMachineHasNoStep : Prop :=
  ∀ (s : State) (e : Cause), s.status = .halted e → step s = .fault .noStepWhenHalted

/-- `40_step_and_addressing.md` R87: a step always terminates; here also that it is never refused. -/
def Obligations.RunningMachineAlwaysSteps : Prop :=
  ∀ s : State, s.status = .running → ∃ t, step s = .next t

/-- `40_step_and_addressing.md` R88, its last sentence. -/
def Obligations.StepKeepsParameters : Prop :=
  ∀ s t : State, step s = .next t →
    t.mem.size = s.mem.size ∧ t.params = s.params
      ∧ t.translator.map (fun k => k.map) = s.translator.map (fun k => k.map)

/-- The reset state is the model's choice of launch arguments (log entries 3 to 7). -/
def Obligations.ResetMeetsTheInvariant : Prop :=
  State.reset.inv = true

/-- Stack safety, bounds safety, canonical memory and shadow shape in one inductive invariant (`State.inv`). -/
def Obligations.StepKeepsTheInvariant : Prop :=
  ∀ s t : State, s.inv = true → step s = .next t → t.inv = true

/-- `60_exceptions.md` R216 over every instruction; the table is spec decision D17 (log entry 17), and `pc` (U5) is left out. -/
def Obligations.HaltingStepIsAtomic : Prop :=
  ∀ (s t : State) (e : Cause), step s = .next t → t.status = .halted e →
    t.a = s.a ∧ t.x = s.x ∧ t.y = s.y ∧ t.z = s.z ∧ t.n = s.n ∧ t.c = s.c ∧ t.mem = s.mem ∧ t.stack = s.stack
      ∧ t.out = s.out ∧ t.params = s.params
      ∧ (t.sp = s.sp
          ∨ (∃ s1, fetchInstr s = .ok (.rts, s1))
            ∧ ((e = .stackUnderflow ∧ s.sp = 1 ∧ t.sp = 0)
              ∨ ∃ a, e = .outOfBounds a ∧ 2 ≤ s.sp ∧ t.sp = s.sp - 2))
      ∧ t.translator
          = (if s.mem.inBounds s.pc then (s.noteOpcode s.pc (s.translate (s.mem.read s.pc))).translator
             else s.translator)

/-- `10_state.md` R20. -/
def Obligations.OutputOnlyGrows : Prop :=
  ∀ s t : State, step s = .next t →
    ∃ bs, t.out = s.out ++ bs
      ∧ (bs ≠ [] → ∃ i s1, fetchInstr s = .ok (i, s1)
          ∧ ((∃ o, i = .wud o ∨ i = .wsd o ∨ i = .wch o ∨ i = .wtx o) ∨ i = .wnl ∨ i = .wtb ∨ i = .wsp))

/-- `46_branch.md` R181. -/
def Obligations.OnlyJumpsLeaveTheSequence : Prop :=
  ∀ (i : Instr) (s t : State), exec i s = .next t → i ≠ .rts → i.form.opClass ≠ .branch → t.pc = s.pc

/-- `40_step_and_addressing.md` R74 to R80; D7 and D10 are the spec's decisions (log entries 11, 14). -/
def Obligations.AddressesOfTheDirectModes : Prop :=
  ∀ (s : State) (v z : Byte) (a : Addr),
    (∃ ea, resolve (.imm v) s = .ok ea ∧ ea + 1 = s.pc)
      ∧ resolve (.abs a) s = .ok a
      ∧ (∃ ea, resolve (.zp z) s = .ok ea ∧ ea.toNat = z.toNat)
      ∧ (∃ ea, resolve (.absX a) s = .ok ea ∧ ea.toNat = (a.toNat + s.x.toNat) % 65536)
      ∧ (∃ ea, resolve (.zpX z) s = .ok ea ∧ ea.toNat = z.toNat + s.x.toNat)
      ∧ (∃ ea, resolve (.absY a) s = .ok ea ∧ ea.toNat = (a.toNat + s.y.toNat) % 65536)
      ∧ (∃ ea, resolve (.zpY z) s = .ok ea ∧ ea.toNat = z.toNat + s.y.toNat)

/-- `40_step_and_addressing.md` R81; D8 and D9 are the spec's decisions (log entries 12, 13). -/
def Obligations.AddressOfThePointerMode : Prop :=
  ∀ (s : State) (z : Byte) (p q : Addr), p.toNat = z.toNat → q.toNat = z.toNat + 1 →
    (s.mem.inBounds p = true → s.mem.inBounds q = true →
      ∃ ea, resolve (.indY z) s = .ok ea
        ∧ ea.toNat = ((s.mem.read p).toNat + 256 * (s.mem.read q).toNat + s.y.toNat) % 65536)
      ∧ (s.mem.inBounds p = false → resolve (.indY z) s = .error z.toNat)
      ∧ (s.mem.inBounds p = true → s.mem.inBounds q = false → resolve (.indY z) s = .error (z.toNat + 1))

/-- `40_step_and_addressing.md` R83 with the pointer check of R81 (spec decision D9, log entry 13), for all 24 operations
and 8 modes. The cause name is spec decision D16 (log entry 1), and `pc` in the halted state rests on D17 (log entry 17). -/
def Obligations.OperandCheckPrecedesTheOperation : Prop :=
  (∀ (o : Operand) (s : State) (ea : Addr),
      effectiveAddr o s = .ok ea ↔ resolve o s = .ok ea ∧ s.mem.inBounds ea = true)
    ∧ (∀ (o : Operand) (s : State) (ea : Addr), resolve o s = .ok ea → s.mem.inBounds ea = false →
        effectiveAddr o s = .error ea.toNat)
    ∧ (∀ (o : Operand) (s : State), s.mem.size = 0 → ∃ ea, effectiveAddr o s = .ok ea)
    ∧ (∀ (op : MmOp) (v : Byte) (s s1 : State), fetchInstr s = .ok (op.instr (.imm v), s1) →
        ∃ ea, effectiveAddr (.imm v) s1 = .ok ea)
    ∧ ∀ (op : MmOp) (o : Operand) (s s1 : State) (a : Nat), s.status = .running →
        fetchInstr s = .ok (op.instr o, s1) → effectiveAddr o s1 = .error a →
        step s = .next { s1 with status := .halted (.outOfBounds a) }
          ∧ s1 = { s.noteOpcode s.pc (s.translate (s.mem.read s.pc)) with pc := s1.pc }

/-- `41_load_store.md` R90, R92, R94 (what LDX and LDY load is general knowledge, G1, log entry 18). -/
def Obligations.LoadsCopyTheOperand : Prop :=
  ∀ (o : Operand) (s : State) (ea : Addr) (v : Byte), effectiveAddr o s = .ok ea → s.mem.read ea = v →
    exec (.lda o) s = .next { s with a := v, z := decide (v = 0), n := v.getLsbD 7 }
      ∧ exec (.ldx o) s = .next { s with x := v, z := decide (v = 0), n := v.getLsbD 7 }
      ∧ exec (.ldy o) s = .next { s with y := v, z := decide (v = 0), n := v.getLsbD 7 }

/-- `41_load_store.md` R91, R93, R95; that stores leave the flags is spec decision D11 (log entry 15). -/
def Obligations.StoresWriteTheRegister : Prop :=
  ∀ (o : Operand) (s : State) (ea : Addr), effectiveAddr o s = .ok ea →
    (∃ t, exec (.sta o) s = .next t ∧ StoredByte s t ea s.a ∧ { t with mem := s.mem, translator := s.translator } = s)
      ∧ (∃ t, exec (.stx o) s = .next t ∧ StoredByte s t ea s.x
          ∧ { t with mem := s.mem, translator := s.translator } = s)
      ∧ ∃ t, exec (.sty o) s = .next t ∧ StoredByte s t ea s.y
          ∧ { t with mem := s.mem, translator := s.translator } = s

/-- `42_logic_shift.md` R100 to R102 (the operations are general knowledge, G1; C unchanged is D11; log entries 15, 18). -/
def Obligations.LogicOnTheAccumulator : Prop :=
  ∀ (o : Operand) (s : State) (ea : Addr) (v : Byte), effectiveAddr o s = .ok ea → s.mem.read ea = v →
    (∃ r : Byte, exec (.and o) s = .next { s with a := r, z := decide (r = 0), n := r.getLsbD 7 }
        ∧ ∀ k, k < 8 → r.getLsbD k = (s.a.getLsbD k && v.getLsbD k))
      ∧ (∃ r : Byte, exec (.ora o) s = .next { s with a := r, z := decide (r = 0), n := r.getLsbD 7 }
        ∧ ∀ k, k < 8 → r.getLsbD k = (s.a.getLsbD k || v.getLsbD k))
      ∧ ∃ r : Byte, exec (.eor o) s = .next { s with a := r, z := decide (r = 0), n := r.getLsbD 7 }
        ∧ ∀ k, k < 8 → r.getLsbD k = xor (s.a.getLsbD k) (v.getLsbD k)

/-- `42_logic_shift.md` R103, R104: stated on bits, where the model computes with numbers (directions: G1, G6, log entry 18). -/
def Obligations.ShiftsOfAnAddressedByte : Prop :=
  ∀ (o : Operand) (s : State) (ea : Addr) (v : Byte), effectiveAddr o s = .ok ea → s.mem.read ea = v →
    (∃ (t : State) (r : Byte), exec (.lsr o) s = .next t ∧ StoredByte s t ea r
          ∧ (∀ k, k < 7 → r.getLsbD k = v.getLsbD (k + 1)) ∧ r.getLsbD 7 = false
          ∧ t.c = v.getLsbD 0 ∧ t.z = decide (r = 0) ∧ t.n = r.getLsbD 7
          ∧ { t with mem := s.mem, translator := s.translator, z := s.z, n := s.n, c := s.c } = s)
      ∧ ∃ (t : State) (r : Byte), exec (.asl o) s = .next t ∧ StoredByte s t ea r
          ∧ (∀ k, k < 7 → r.getLsbD (k + 1) = v.getLsbD k) ∧ r.getLsbD 0 = false
          ∧ t.c = v.getLsbD 7 ∧ t.z = decide (r = 0) ∧ t.n = r.getLsbD 7
          ∧ { t with mem := s.mem, translator := s.translator, z := s.z, n := s.n, c := s.c } = s

/-- `42_logic_shift.md` R105, R106: stated on bits, where the model computes with numbers (directions: G1, G6, log entry 18). -/
def Obligations.RotatesOfAnAddressedByte : Prop :=
  ∀ (o : Operand) (s : State) (ea : Addr) (v : Byte), effectiveAddr o s = .ok ea → s.mem.read ea = v →
    (∃ (t : State) (r : Byte), exec (.ror o) s = .next t ∧ StoredByte s t ea r
          ∧ (∀ k, k < 7 → r.getLsbD k = v.getLsbD (k + 1)) ∧ r.getLsbD 7 = s.c
          ∧ t.c = v.getLsbD 0 ∧ t.z = decide (r = 0) ∧ t.n = r.getLsbD 7
          ∧ { t with mem := s.mem, translator := s.translator, z := s.z, n := s.n, c := s.c } = s)
      ∧ ∃ (t : State) (r : Byte), exec (.rol o) s = .next t ∧ StoredByte s t ea r
          ∧ (∀ k, k < 7 → r.getLsbD (k + 1) = v.getLsbD k) ∧ r.getLsbD 0 = s.c
          ∧ t.c = v.getLsbD 7 ∧ t.z = decide (r = 0) ∧ t.n = r.getLsbD 7
          ∧ { t with mem := s.mem, translator := s.translator, z := s.z, n := s.n, c := s.c } = s

/-- `43_arith_compare.md` R110. (The opcode bytes of the rule are the default map: `WordsOfTheDefaultMap`.) -/
def Obligations.AdcIsTheNineBitSum : Prop :=
  ∀ (o : Operand) (s : State) (ea : Addr) (m : Byte), effectiveAddr o s = .ok ea → s.mem.read ea = m →
    ∃ t, exec (.adc o) s = .next t
      ∧ t.a.toNat = (s.a.toNat + m.toNat + s.c.toNat) % 256
      ∧ (t.c = true ↔ s.a.toNat + m.toNat + s.c.toNat > 255)
      ∧ (t.z = true ↔ t.a = 0) ∧ t.n = t.a.getLsbD 7
      ∧ { t with a := s.a, z := s.z, n := s.n, c := s.c } = s

/-- `43_arith_compare.md` R111. -/
def Obligations.SbcIsTheNineBitDifference : Prop :=
  ∀ (o : Operand) (s : State) (ea : Addr) (m : Byte) (d : Int), effectiveAddr o s = .ok ea → s.mem.read ea = m →
    d = (s.a.toNat : Int) - m.toNat - (1 - s.c.toNat) →
    ∃ t, exec (.sbc o) s = .next t
      ∧ (t.a.toNat : Int) = d % 256
      ∧ (t.c = true ↔ d ≥ 0)
      ∧ (t.z = true ↔ t.a = 0) ∧ t.n = t.a.getLsbD 7
      ∧ { t with a := s.a, z := s.z, n := s.n, c := s.c } = s

/-- `43_arith_compare.md` R112, R113. -/
def Obligations.IncDecOfAnAddressedByte : Prop :=
  ∀ (o : Operand) (s : State) (ea : Addr) (v : Byte), effectiveAddr o s = .ok ea → s.mem.read ea = v →
    (∃ (t : State) (r : Byte), exec (.inc o) s = .next t ∧ StoredByte s t ea r ∧ r.toNat = (v.toNat + 1) % 256
        ∧ t.z = decide (r = 0) ∧ t.n = r.getLsbD 7
        ∧ { t with mem := s.mem, translator := s.translator, z := s.z, n := s.n } = s)
      ∧ ∃ (t : State) (r : Byte), exec (.dec o) s = .next t ∧ StoredByte s t ea r
        ∧ r.toNat = (v.toNat + 255) % 256
        ∧ t.z = decide (r = 0) ∧ t.n = r.getLsbD 7
        ∧ { t with mem := s.mem, translator := s.translator, z := s.z, n := s.n } = s

/-- `43_arith_compare.md` R114 to R116. -/
def Obligations.ComparesSetFlagsFromTheDifference : Prop :=
  ∀ (o : Operand) (s : State) (ea : Addr) (m : Byte), effectiveAddr o s = .ok ea → s.mem.read ea = m →
    let flags := fun (reg : Byte) =>
      { s with
        z := decide (reg = m)
        n := decide (128 ≤ (reg.toNat + 256 - m.toNat) % 256)
        c := decide ((reg.toNat + 256 - m.toNat) % 256 < reg.toNat) }
    exec (.cmp o) s = .next (flags s.a) ∧ exec (.cpx o) s = .next (flags s.x) ∧ exec (.cpy o) s = .next (flags s.y)

/-- The quirk of `70_reset_and_hazards.md` R239, which the spec derives from the formula. -/
def Obligations.CompareCarryQuirk : Prop :=
  ∀ (o : Operand) (s : State) (ea : Addr) (m : Byte), effectiveAddr o s = .ok ea → s.mem.read ea = m →
    (∃ t, exec (.cmp o) s = .next t ∧ (t.c = true ↔ m ≠ 0 ∧ m.toNat ≤ s.a.toNat))
      ∧ (∃ t, exec (.cpx o) s = .next t ∧ (t.c = true ↔ m ≠ 0 ∧ m.toNat ≤ s.x.toNat))
      ∧ ∃ t, exec (.cpy o) s = .next t ∧ (t.c = true ↔ m ≠ 0 ∧ m.toNat ≤ s.y.toNat)

/-- `44_output.md` R122 to R125; the text format is spec decision D13 and the codes are general knowledge, G4, G5 (log entries 16, 18). -/
def Obligations.DecimalAndCharacterOutput : Prop :=
  ∀ (o : Operand) (s : State) (ea : Addr) (v : Byte), effectiveAddr o s = .ok ea → s.mem.read ea = v →
    (∃ text : List Byte, exec (.wud o) s = .next { s with out := s.out ++ text }
        ∧ text.map BitVec.toNat = (Nat.toDigits 10 v.toNat).map Char.toNat)
      ∧ (∃ text : List Byte, exec (.wsd o) s = .next { s with out := s.out ++ text }
        ∧ text.map BitVec.toNat
            = (if v.toNat < 128 then Nat.toDigits 10 v.toNat else '-' :: Nat.toDigits 10 (256 - v.toNat)).map Char.toNat)
      ∧ exec (.wch o) s = .next { s with out := s.out ++ [v] }

/-- `44_output.md` R126, the terminated case. -/
def Obligations.StringOutputEmitsTheRun : Prop :=
  ∀ (o : Operand) (s : State) (ea : Addr) (n : Nat), effectiveAddr o s = .ok ea →
    ea.toNat + n < s.mem.limit → s.mem.byteAt (ea.toNat + n) = 0 →
    (∀ j, j < n → s.mem.byteAt (ea.toNat + j) ≠ 0) →
    exec (.wtx o) s
      = .next { s with out := s.out ++ (List.range n).map fun j => s.mem.byteAt (ea.toNat + j) }

/-- `44_output.md` R126, spec decision D14 (log entry 16). -/
def Obligations.UnterminatedStringHalts : Prop :=
  ∀ (o : Operand) (s : State) (ea : Addr), effectiveAddr o s = .ok ea →
    (∀ j, ea.toNat ≤ j → j < (if s.mem.size = 0 then 65536 else s.mem.size) → s.mem.byteAt j ≠ 0) →
    exec (.wtx o) s
      = .next { s with status := .halted (.outOfBounds (if s.mem.size = 0 then 65536 else s.mem.size)) }

/-- `45_implicit.md` R130. -/
def Obligations.HltHaltsAndChangesNothingElse : Prop :=
  ∀ s : State, exec .hlt s = .next { s with status := .halted .hlt }

/-- `45_implicit.md` R131, the returning case. -/
def Obligations.RtsReturnsToThePoppedAddress : Prop :=
  ∀ (s : State) (hi lo : Byte) (p : Addr), 2 ≤ s.sp →
    s.stack[s.sp - 1]? = some hi → s.stack[s.sp - 2]? = some lo → p.toNat = hi.toNat * 256 + lo.toNat →
    s.mem.inBounds p = true →
    exec .rts s = .next { s with pc := p, sp := s.sp - 2 }

/-- `45_implicit.md` R131; the value of `sp` after a fault is spec decision D17 (log entry 17). -/
def Obligations.RtsFaults : Prop :=
  ∀ s : State,
    (s.sp = 0 → exec .rts s = .next { s with status := .halted .stackUnderflow })
      ∧ (s.sp = 1 → exec .rts s = .next { s with sp := 0, status := .halted .stackUnderflow })
      ∧ ∀ (hi lo : Byte) (p : Addr), 2 ≤ s.sp →
          s.stack[s.sp - 1]? = some hi → s.stack[s.sp - 2]? = some lo → p.toNat = hi.toNat * 256 + lo.toNat →
          s.mem.inBounds p = false →
          exec .rts s = .next { s with sp := s.sp - 2, status := .halted (.outOfBounds p.toNat) }

/-- `45_implicit.md` R132 to R135 (directions: G1, G6, log entry 18). -/
def Obligations.ShiftsOfTheAccumulator : Prop :=
  ∀ s : State,
    (∃ r : Byte, exec .lsa s = .next { s with a := r, c := s.a.getLsbD 0, z := decide (r = 0), n := r.getLsbD 7 }
          ∧ (∀ k, k < 7 → r.getLsbD k = s.a.getLsbD (k + 1)) ∧ r.getLsbD 7 = false)
      ∧ (∃ r : Byte, exec .asa s = .next { s with a := r, c := s.a.getLsbD 7, z := decide (r = 0), n := r.getLsbD 7 }
          ∧ (∀ k, k < 7 → r.getLsbD (k + 1) = s.a.getLsbD k) ∧ r.getLsbD 0 = false)
      ∧ (∃ r : Byte, exec .rra s = .next { s with a := r, c := s.a.getLsbD 0, z := decide (r = 0), n := r.getLsbD 7 }
          ∧ (∀ k, k < 7 → r.getLsbD k = s.a.getLsbD (k + 1)) ∧ r.getLsbD 7 = s.c)
      ∧ ∃ r : Byte, exec .rla s = .next { s with a := r, c := s.a.getLsbD 7, z := decide (r = 0), n := r.getLsbD 7 }
          ∧ (∀ k, k < 7 → r.getLsbD (k + 1) = s.a.getLsbD k) ∧ r.getLsbD 0 = s.c

/-- `45_implicit.md` R136 to R141. -/
def Obligations.IncDecOfARegister : Prop :=
  ∀ s : State,
    (∃ r : Byte, exec .ina s = .next { s with a := r, z := decide (r = 0), n := r.getLsbD 7 }
        ∧ r.toNat = (s.a.toNat + 1) % 256)
      ∧ (∃ r : Byte, exec .dea s = .next { s with a := r, z := decide (r = 0), n := r.getLsbD 7 }
        ∧ r.toNat = (s.a.toNat + 255) % 256)
      ∧ (∃ r : Byte, exec .inx s = .next { s with x := r, z := decide (r = 0), n := r.getLsbD 7 }
        ∧ r.toNat = (s.x.toNat + 1) % 256)
      ∧ (∃ r : Byte, exec .dex s = .next { s with x := r, z := decide (r = 0), n := r.getLsbD 7 }
        ∧ r.toNat = (s.x.toNat + 255) % 256)
      ∧ (∃ r : Byte, exec .iny s = .next { s with y := r, z := decide (r = 0), n := r.getLsbD 7 }
        ∧ r.toNat = (s.y.toNat + 1) % 256)
      ∧ (∃ r : Byte, exec .dey s = .next { s with y := r, z := decide (r = 0), n := r.getLsbD 7 }
        ∧ r.toNat = (s.y.toNat + 255) % 256)

/-- `45_implicit.md` R142 to R147 (which flag each names: G1, log entry 18). -/
def Obligations.FlagInstructionsWriteOneFlag : Prop :=
  ∀ s : State,
    exec .sez s = .next { s with z := true }
      ∧ exec .clz s = .next { s with z := false }
      ∧ exec .sen s = .next { s with n := true }
      ∧ exec .cln s = .next { s with n := false }
      ∧ exec .sec s = .next { s with c := true }
      ∧ exec .clc s = .next { s with c := false }

/-- `45_implicit.md` R148 to R153 (directions: G3, log entry 18). -/
def Obligations.TransfersCopyARegister : Prop :=
  ∀ s : State,
    exec .tax s = .next { s with x := s.a, z := decide (s.a = 0), n := s.a.getLsbD 7 }
      ∧ exec .txa s = .next { s with a := s.x, z := decide (s.x = 0), n := s.x.getLsbD 7 }
      ∧ exec .tay s = .next { s with y := s.a, z := decide (s.a = 0), n := s.a.getLsbD 7 }
      ∧ exec .tya s = .next { s with a := s.y, z := decide (s.y = 0), n := s.y.getLsbD 7 }
      ∧ exec .txy s = .next { s with y := s.x, z := decide (s.x = 0), n := s.x.getLsbD 7 }
      ∧ exec .tyx s = .next { s with x := s.y, z := decide (s.y = 0), n := s.y.getLsbD 7 }

/-- `45_implicit.md` R154 to R156; that pushes leave the flags is D11 (log entry 15). -/
def Obligations.PushesAddOneEntry : Prop :=
  ∀ s : State, s.sp < 256 →
    (∃ t, exec .pha s = .next t ∧ t.sp = s.sp + 1 ∧ t.stack[s.sp]? = some s.a
        ∧ (∀ j, j ≠ s.sp → t.stack[j]? = s.stack[j]?) ∧ { t with stack := s.stack, sp := s.sp } = s)
      ∧ (∃ t, exec .phx s = .next t ∧ t.sp = s.sp + 1 ∧ t.stack[s.sp]? = some s.x
        ∧ (∀ j, j ≠ s.sp → t.stack[j]? = s.stack[j]?) ∧ { t with stack := s.stack, sp := s.sp } = s)
      ∧ (∃ t, exec .phy s = .next t ∧ t.sp = s.sp + 1 ∧ t.stack[s.sp]? = some s.y
        ∧ (∀ j, j ≠ s.sp → t.stack[j]? = s.stack[j]?) ∧ { t with stack := s.stack, sp := s.sp } = s)

/-- `45_implicit.md` R157 to R159; `PULL_SETS_ZN` is the open parameter of D12 (log entry 10), and the statement holds for both values. -/
def Obligations.PullsTakeTheTopEntry : Prop :=
  ∀ (s : State) (v : Byte), 1 ≤ s.sp → s.stack[s.sp - 1]? = some v →
    (exec .pla s
        = .next
          (if s.params.pullSetsZN then { s with a := v, sp := s.sp - 1, z := decide (v = 0), n := v.getLsbD 7 }
           else { s with a := v, sp := s.sp - 1 }))
      ∧ (exec .plx s
        = .next
          (if s.params.pullSetsZN then { s with x := v, sp := s.sp - 1, z := decide (v = 0), n := v.getLsbD 7 }
           else { s with x := v, sp := s.sp - 1 }))
      ∧ (exec .ply s
        = .next
          (if s.params.pullSetsZN then { s with y := v, sp := s.sp - 1, z := decide (v = 0), n := v.getLsbD 7 }
           else { s with y := v, sp := s.sp - 1 }))

/-- `60_exceptions.md` R212, the source's property S8. -/
def Obligations.StackLimitsHalt : Prop :=
  ∀ s : State,
    (s.sp = 256 →
        exec .pha s = .next { s with status := .halted .stackOverflow }
          ∧ exec .phx s = .next { s with status := .halted .stackOverflow }
          ∧ exec .phy s = .next { s with status := .halted .stackOverflow })
      ∧ (s.sp = 0 →
        exec .pla s = .next { s with status := .halted .stackUnderflow }
          ∧ exec .plx s = .next { s with status := .halted .stackUnderflow }
          ∧ exec .ply s = .next { s with status := .halted .stackUnderflow })

/-- `45_implicit.md` R160 to R162 (codes: G4, log entry 18). -/
def Obligations.WhitespaceOutput : Prop :=
  ∀ s : State,
    exec .wnl s = .next { s with out := s.out ++ [0x0A] }
      ∧ exec .wtb s = .next { s with out := s.out ++ [0x09] }
      ∧ exec .wsp s = .next { s with out := s.out ++ [0x20] }

/-- `45_implicit.md` R163 to R167, `60_exceptions.md` R211, for every value of `IMPL_MAP`: the recorded byte is the one the map
gives the slot, and a legal map gives it back. The bytes of the last clause are the default map (D2, D4; log entry 9). -/
def Obligations.IllegalOpcodesHalt : Prop :=
  ∀ s : State,
    let byte := fun slot : ImplOp => implByte s.params.numbering slot
    let halts := fun (i : Instr) (b : Byte) => exec i s = .next { s with status := .halted (.illegalOpcode b) }
    (halts .rud (byte .rud) ∧ halts .rsd (byte .rsd) ∧ halts .rch (byte .rch) ∧ halts .rtx (byte .rtx)
        ∧ halts .illegalE5 (byte .illegalE5) ∧ halts .illegalE6 (byte .illegalE6) ∧ halts .illegalE7 (byte .illegalE7)
        ∧ halts .illegalE8 (byte .illegalE8) ∧ halts .illegalE9 (byte .illegalE9) ∧ halts .illegalEA (byte .illegalEA)
        ∧ halts .illegalEB (byte .illegalEB) ∧ halts .illegalEC (byte .illegalEC) ∧ halts .illegalED (byte .illegalED)
        ∧ halts .illegalEE (byte .illegalEE) ∧ halts .illegalEF (byte .illegalEF))
      ∧ (s.params.numbering.wf = true → ∀ slot : ImplOp, ∃ (k : Nat) (h : k < 48),
          (byte slot).toNat = 0xC0 + k ∧ s.params.numbering.impl[k] = slot)
      ∧ (s.params.numbering = Numbering.default →
          byte .rud = 0xE1 ∧ byte .rsd = 0xE2 ∧ byte .rch = 0xE3 ∧ byte .rtx = 0xE4
            ∧ byte .illegalE5 = 0xE5 ∧ byte .illegalE6 = 0xE6 ∧ byte .illegalE7 = 0xE7 ∧ byte .illegalE8 = 0xE8
            ∧ byte .illegalE9 = 0xE9 ∧ byte .illegalEA = 0xEA ∧ byte .illegalEB = 0xEB ∧ byte .illegalEC = 0xEC
            ∧ byte .illegalED = 0xED ∧ byte .illegalEE = 0xEE ∧ byte .illegalEF = 0xEF)

/-- `60_exceptions.md` R211: legality is judged on the translated byte, for every value of `IMPL_MAP`. -/
def Obligations.IllegalOpcodeRecordsTheTranslatedByte : Prop :=
  ∀ (s t : State) (b : Byte), s.params.numbering.wf = true → step s = .next t → t.status = .halted (.illegalOpcode b) →
    b = s.translate (s.mem.read s.pc) ∧ 0xC0 ≤ b.toNat ∧ b.toNat < 0xF0

/-- `46_branch.md` R172; checking an untaken branch is spec decision D18 (log entry 16). -/
def Obligations.BranchTargetOutOfBoundsHalts : Prop :=
  ∀ (op : BrOp) (g : Target) (s : State), s.mem.inBounds (resolveTarget g s) = false →
    exec (op.instr g) s = .next { s with status := .halted (.outOfBounds (resolveTarget g s).toNat) }

/-- `46_branch.md` R173. -/
def Obligations.BsrPushesTheReturnAddress : Prop :=
  ∀ (g : Target) (s : State), s.sp ≤ 254 → s.mem.inBounds (resolveTarget g s) = true →
    ∃ (t : State) (lo hi : Byte), exec (.bsr g) s = .next t ∧ lo.toNat = s.pc.toNat % 256 ∧ hi.toNat = s.pc.toNat / 256
      ∧ t.pc = resolveTarget g s ∧ t.sp = s.sp + 2
      ∧ t.stack[s.sp]? = some lo ∧ t.stack[s.sp + 1]? = some hi
      ∧ (∀ j, j ≠ s.sp → j ≠ s.sp + 1 → t.stack[j]? = s.stack[j]?)
      ∧ { t with pc := s.pc, sp := s.sp, stack := s.stack } = s

/-- `46_branch.md` R173; checking for both bytes first is spec decision D19 (log entry 16). -/
def Obligations.BsrWithoutRoomHalts : Prop :=
  ∀ (g : Target) (s : State), s.sp = 255 ∨ s.sp = 256 → s.mem.inBounds (resolveTarget g s) = true →
    exec (.bsr g) s = .next { s with status := .halted .stackOverflow }

/-- `46_branch.md` R174 to R180 (polarity: G2, D6, log entry 18). -/
def Obligations.BranchesSetOnlyThePc : Prop :=
  ∀ (g : Target) (s : State) (p : Addr), resolveTarget g s = p → s.mem.inBounds p = true →
    exec (.bra g) s = .next { s with pc := p }
      ∧ exec (.bne g) s = .next { s with pc := if s.z then s.pc else p }
      ∧ exec (.beq g) s = .next { s with pc := if s.z then p else s.pc }
      ∧ exec (.bpl g) s = .next { s with pc := if s.n then s.pc else p }
      ∧ exec (.bmi g) s = .next { s with pc := if s.n then p else s.pc }
      ∧ exec (.bcc g) s = .next { s with pc := if s.c then s.pc else p }
      ∧ exec (.bcs g) s = .next { s with pc := if s.c then p else s.pc }

/-- The source's property S7, for both forms of BSR. -/
def Obligations.BsrThenRtsReturns : Prop :=
  ∀ (g : Target) (s : State), s.sp ≤ 254 → s.mem.inBounds (resolveTarget g s) = true → s.mem.inBounds s.pc = true →
    ∃ t, exec (.bsr g) s = .next t
      ∧ ∀ p : Addr, ∃ u, exec .rts (t.withPc p) = .next u ∧ { u with stack := s.stack } = s
          ∧ ∀ j, j < s.sp → u.stack[j]? = s.stack[j]?

/-- `50_translator.md` R193: the event belongs to the opcode fetch, so it happens whether or not the operand bytes follow. The
operand bytes that decode takes are the live bytes; one that the length does not take does not change the form. -/
def Obligations.OpcodeFetchEventRecordsBothShadows : Prop :=
  ∀ (s : State) (k : Translator), s.translator = some k → k.fits s.mem = true → s.mem.inBounds s.pc = true →
    ∃ (l : Translator) (op : Byte),
      op = k.map[(s.mem.read s.pc).toNat]
        ∧ fetchOpcode s = .ok (op, { s with pc := s.pc + 1, translator := some l })
        ∧ l.map = k.map ∧ l.input.read s.pc = op ∧ l.output.read s.pc = op
        ∧ (∀ b, b ≠ s.pc → l.input.read b = k.input.read b ∧ l.output.read b = k.output.read b)
        ∧ (∀ (i : Instr) (s1 : State), fetchInstr s = .ok (i, s1) →
            i.form = formOf s.params.numbering op (s.mem.read (s.pc + 1)) (s.mem.read (s.pc + 2))
              ∧ s1 = { s with pc := s.pc + BitVec.ofNat 16 (opLength op), translator := some l })
        ∧ ∀ h : State, fetchInstr s = .error h →
            h = { s with pc := h.pc, status := h.status, translator := some l } ∧ (s.status = .running → step s = .next h)

/-- `50_translator.md` R196 (b) and (d) for one step, over every instruction. -/
def Obligations.InputShadowChangesOnlyAtTheFetch : Prop :=
  ∀ (s t : State) (k : Translator), s.inv = true → s.translator = some k → step s = .next t →
    ∃ l, t.translator = some l ∧ l.map = k.map
      ∧ (s.mem.inBounds s.pc = true → l.input.read s.pc = k.map[(s.mem.read s.pc).toNat])
      ∧ (s.mem.inBounds s.pc = false → l = k)
      ∧ ∀ b, b ≠ s.pc → l.input.read b = k.input.read b

/-- The observer observes: with the identity table nothing of the machine depends on it. -/
def Obligations.IdentityTranslatorIsTransparent : Prop :=
  ∀ (s t : State) (k : Translator), s.translator = some k → (∀ b : Byte, k.map[b.toNat] = b) →
    step s = .next t → step { s with translator := none } = .next { t with translator := none }

/-- `10_state.md` R23: the shadows are observer state. -/
def Obligations.ShadowsNeverInfluenceTheMachine : Prop :=
  ∀ (s t : State) (k : Translator) (inp outp : Memory), s.translator = some k → step s = .next t →
    ∃ inp' outp', step { s with translator := some { k with input := inp, output := outp } }
      = .next { t with translator := some { map := k.map, input := inp', output := outp' } }

/-- `20_memory.md` R32 and R34. -/
def Obligations.MemoryPortsOfBothShapes : Prop :=
  ∀ (m : Memory) (a : Addr) (v : Byte),
    (m.inBounds a = true ↔ m.size = 0 ∨ a.toNat < m.size)
      ∧ (m.size = 0 → (m.write a v).2 = true)
      ∧ (m.inBounds a = true →
          (m.write a v).2 = true ∧ (m.write a v).1.read a = v ∧ (m.write a v).1.size = m.size
            ∧ ∀ b, b ≠ a → (m.write a v).1.read b = m.read b)
      ∧ (m.inBounds a = false → (m.write a v).2 = false ∧ (m.write a v).1 = m ∧ m.read a = 0)

/-- `50_translator.md` R198. A token that does not parse stands as `none` (N16, log entry 20). -/
def Obligations.LoadedTableTakesTheLastPair : Prop :=
  (∀ (pairs : List (Byte × Byte)) (b : Byte),
      (tableOfPairs pairs)[b.toNat] = ((pairs.reverse.find? fun p => p.1 == b).map Prod.snd).getD b)
    ∧ (∀ pairs : List (Byte × Byte),
        loadTable (pairs.flatMap fun p => [some p.1.toNat, some p.2.toNat]) = (tableOfPairs pairs, false))
    ∧ ∀ tokens : List (Option Nat),
        ((loadTable tokens).2 = true ↔
            tokens.length % 2 = 1 ∨ none ∈ tokens ∨ ∃ n, some n ∈ tokens ∧ 0xFF < n)
          ∧ ((loadTable tokens).2 = true → ∀ b : Byte, (loadTable tokens).1[b.toNat] = b)

/-- `51_interfaces.md` R201 with the table of `10_state.md` R24, for the legal argument values of `00_scope.md` R4; that arguments
with other values launch no machine is the model's reading of R4 (log entry 20). `sp` = 0 and the open registers are spec
decision D15 (log entry 3 names what `State.reset` takes for them), no translator yet is D23 (log entry 7). -/
def Obligations.CreationSucceedsExactlyInBounds : Prop :=
  ∀ l : Launch,
    (l.legal = true → (l.create = none ↔ l.mem.inBounds l.pc0 = false))
      ∧ (l.legal = true → l.mem.size = 0 → l.create ≠ none)
      ∧ (l.legal = false → l.create = none)
      ∧ ∀ s, l.create = some s →
          s.pc = l.pc0 ∧ s.sp = 0 ∧ s.status = .running ∧ s.out = [] ∧ s.translator = none ∧ s.mem = l.mem
            ∧ s.a = l.a0 ∧ s.x = l.x0 ∧ s.y = l.y0 ∧ s.z = l.z0 ∧ s.n = l.n0 ∧ s.c = l.c0
            ∧ s.params = l.params ∧ s.inv = true

/-- `50_translator.md` R191; refusing a second attachment is the reading of R190 (log entry 20). -/
def Obligations.AttachmentClonesLiveMemory : Prop :=
  ∀ (table : Vector Byte 256) (s : State),
    (s.translator = none →
      s.attach table = some { s with translator := some { map := table, input := s.mem, output := s.mem } })
      ∧ (s.translator ≠ none → s.attach table = none)

/-- `30_encoding.md` R63, R64. A spelling is any list of characters; one is a mnemonic's when its upper case is. The names of the
accumulator shifts and of the reserved reads are spec decisions D3, D4 (log entries 9, 21). -/
def Obligations.OpcodeTableLookups : Prop :=
  ∀ m : Numbering, m.wf = true →
    (∀ (f : Form) (op : Byte), (f.encode m).head? = some op → mnemonicOf m op = formName f)
      ∧ (∀ (f : Form) (name : List Char) (op : Byte), formName f = some name → (f.encode m).head? = some op →
          name.length = 3 ∧ lookupOpcode m name f.candidate = .ok op
            ∧ lookupOpcode m (name.map Char.toLower) f.candidate = .ok op
            ∧ ∀ spelling : List Char, spelling.map Char.toUpper = name →
                lookupOpcode m spelling f.candidate = .ok op
                  ∧ ∀ mode, f.opClass.admits mode = false → lookupOpcode m spelling mode = .error .illegalMode)
      ∧ (∀ (spelling : List Char) (mode : Option Candidate),
          (∀ f : Form, formName f ≠ some (spelling.map Char.toUpper)) →
          lookupOpcode m spelling mode = .error .unknownMnemonic)
      ∧ ∀ (spelling : List Char) (mode : Option Candidate), spelling.length ≠ 3 →
          lookupOpcode m spelling mode = .error .unknownMnemonic
end

