-- ==== Sys2Proof/Laws/Decode.lean ====
section
/-! SUPPORT. Forms and instructions are the same thing, and the default numbering is a legal one;
a legal numbering has an inverse; what the fields of an opcode byte select. -/

namespace Sys2Proof

@[simp] theorem MmOp.instr_form (op : MmOp) (o : Operand) : (op.instr o).form = .mm op o := by cases op <;> rfl

@[simp] theorem ImplOp.instr_form (op : ImplOp) : op.instr.form = .impl op := by cases op <;> rfl

@[simp] theorem BrOp.instr_form (op : BrOp) (t : Target) : (op.instr t).form = .br op t := by cases op <;> rfl

@[simp] theorem Form.instr_form (f : Form) : f.instr.form = f := by cases f <;> simp [Form.instr]

@[simp] theorem Instr.form_instr (i : Instr) : i.form.instr = i := by cases i <;> rfl

/-- Every instruction has an operand form that its class admits (`30_encoding.md` R64). -/
theorem Instr.wf_true (i : Instr) : i.form.wf = true := by
  cases h : i.form with
  | mm op o => cases o <;> rfl
  | impl op => rfl
  | br op t => cases t <;> rfl

theorem Numbering.default_wf : Numbering.default.wf = true := by decide

theorem MmOp.mem_all (o : MmOp) : o ∈ MmOp.all := by cases o <;> decide

theorem ImplOp.mem_all (o : ImplOp) : o ∈ ImplOp.all := by cases o <;> decide

theorem BrOp.mem_all (o : BrOp) : o ∈ BrOp.all := by cases o <;> decide

/-- A legal numbering lists every operation of each class once. -/
theorem Numbering.wf_lists {m : Numbering} (h : m.wf = true) :
    (m.mm.toList.Nodup ∧ ∀ o, o ∈ m.mm.toList) ∧ (m.impl.toList.Nodup ∧ ∀ o, o ∈ m.impl.toList)
      ∧ m.br.toList.Nodup ∧ ∀ o, o ∈ m.br.toList := by
  simp only [Numbering.wf, Numbering.mmWf, Numbering.implWf, Numbering.brWf, Bool.and_eq_true, decide_eq_true_eq,
    List.all_eq_true] at h
  obtain ⟨⟨⟨a1, a2⟩, b1, b2⟩, c1, c2⟩ := h
  exact ⟨⟨a1, fun o => by simpa using a2 o (MmOp.mem_all o)⟩, ⟨b1, fun o => by simpa using b2 o (ImplOp.mem_all o)⟩,
    ⟨c1, fun o => by simpa using c2 o (BrOp.mem_all o)⟩⟩

/-- The number of the operation with a number is that number, when no operation is listed twice. -/
theorem idxOf_getElem_of_nodup {α : Type} {n : Nat} [DecidableEq α] (v : Vector α n) (h : v.toList.Nodup) (i : Nat)
    (hi : i < n) : v.toList.idxOf v[i] = i := by
  have e : v[i] = v.toList[i]'(by simpa using hi) := by simp
  rw [e]
  exact List.Nodup.idxOf_getElem h i _

/-- The operation with the number of a listed operation is that operation. -/
theorem getElem_idxOf_of_mem {α : Type} {n : Nat} [DecidableEq α] (v : Vector α n) (o : α) (h : o ∈ v.toList) :
    ∃ hi : v.toList.idxOf o < n, v[v.toList.idxOf o] = o := by
  have h1 := List.idxOf_lt_length_iff.mpr h
  have h2 : v.toList.idxOf o < n := by simpa using h1
  refine ⟨h2, ?_⟩
  rw [← Vector.getElem_toList]
  exact List.getElem_idxOf h1

theorem Operand.mode_lt (o : Operand) : o.mode < 8 := by cases o <;> simp [Operand.mode]

theorem Target.absBit_lt (t : Target) : t.absBit < 2 := by cases t <;> simp [Target.absBit]

/-- Every opcode byte is of one of the three classes, with the fields of its class (`30_encoding.md` R51). -/
theorem opcode_fields (op : Byte) :
    (∃ i mode, i < 24 ∧ mode < 8 ∧ op = BitVec.ofNat 8 (i * 8 + mode))
      ∨ (∃ i, i < 48 ∧ op = BitVec.ofNat 8 (0xC0 + i))
      ∨ ∃ i bit, i < 8 ∧ bit < 2 ∧ op = BitVec.ofNat 8 (0xF0 + i * 2 + bit) := by
  have := op.isLt
  by_cases h : op.toNat < 0xC0
  · refine .inl ⟨op.toNat / 8, op.toNat % 8, by omega, by omega, ?_⟩
    apply BitVec.eq_of_toNat_eq
    simp
    omega
  · by_cases h2 : op.toNat < 0xF0
    · refine .inr (.inl ⟨op.toNat - 0xC0, by omega, ?_⟩)
      apply BitVec.eq_of_toNat_eq
      simp
      omega
    · refine .inr (.inr ⟨(op.toNat - 0xF0) / 2, op.toNat % 2, by omega, by omega, ?_⟩)
      apply BitVec.eq_of_toNat_eq
      simp
      omega

theorem formOf_multimode (m : Numbering) (i mode : Nat) (hi : i < 24) (hm : mode < 8) (b1 b2 : Byte) :
    formOf m (BitVec.ofNat 8 (i * 8 + mode)) b1 b2 = .mm m.mm[i] (operandOf mode b1 b2) := by
  have e : (BitVec.ofNat 8 (i * 8 + mode)).toNat = i * 8 + mode := by simp; omega
  unfold formOf
  simp only [e]
  rw [dif_pos (by omega)]
  congr 1
  · congr 1; omega
  · congr 1; omega

theorem formOf_implicit (m : Numbering) (i : Nat) (hi : i < 48) (b1 b2 : Byte) :
    formOf m (BitVec.ofNat 8 (0xC0 + i)) b1 b2 = .impl m.impl[i] := by
  have e : (BitVec.ofNat 8 (0xC0 + i)).toNat = 0xC0 + i := by simp; omega
  unfold formOf
  simp only [e]
  rw [dif_neg (by omega), dif_pos (by omega)]
  have e2 : 192 + i - 192 = i := by omega
  simp only [e2]

theorem formOf_branch (m : Numbering) (i bit : Nat) (hi : i < 8) (hb : bit < 2) (b1 b2 : Byte) :
    formOf m (BitVec.ofNat 8 (0xF0 + i * 2 + bit)) b1 b2 = .br m.br[i] (targetOf bit b1 b2) := by
  have e : (BitVec.ofNat 8 (0xF0 + i * 2 + bit)).toNat = 0xF0 + i * 2 + bit := by simp; omega
  unfold formOf
  simp only [e]
  rw [dif_neg (by omega), dif_neg (by omega)]
  congr 1
  · congr 1; omega
  · congr 1; omega

theorem opLength_multimode (i mode : Nat) (hi : i < 24) (hm : mode < 8) :
    opLength (BitVec.ofNat 8 (i * 8 + mode)) = if mode = 1 ∨ mode = 3 ∨ mode = 5 then 3 else 2 := by
  have e : (BitVec.ofNat 8 (i * 8 + mode)).toNat = i * 8 + mode := by simp; omega
  simp only [opLength, classOf, e, if_pos (show i * 8 + mode < 0xC0 by omega)]
  rw [show (i * 8 + mode) % 8 = mode by omega]

theorem opLength_implicit (i : Nat) (hi : i < 48) : opLength (BitVec.ofNat 8 (0xC0 + i)) = 1 := by
  have e : (BitVec.ofNat 8 (0xC0 + i)).toNat = 0xC0 + i := by simp; omega
  simp only [opLength, classOf, e, if_neg (show ¬0xC0 + i < 0xC0 by omega), if_pos (show 0xC0 + i < 0xF0 by omega)]

theorem opLength_branch (i bit : Nat) (hi : i < 8) (hb : bit < 2) :
    opLength (BitVec.ofNat 8 (0xF0 + i * 2 + bit)) = 2 + bit := by
  have e : (BitVec.ofNat 8 (0xF0 + i * 2 + bit)).toNat = 0xF0 + i * 2 + bit := by simp; omega
  simp only [opLength, classOf, e, if_neg (show ¬0xF0 + i * 2 + bit < 0xC0 by omega),
    if_neg (show ¬0xF0 + i * 2 + bit < 0xF0 by omega)]
  rw [show (0xF0 + i * 2 + bit) % 2 = bit by omega]
  split <;> omega

/-- An operand byte that the length of the instruction does not take is not looked at (`30_encoding.md` R61). -/
theorem formOf_congr (m : Numbering) (op : Byte) {b1 b2 c1 c2 : Byte} (h1 : 2 ≤ opLength op → b1 = c1)
    (h2 : 3 ≤ opLength op → b2 = c2) : formOf m op b1 b2 = formOf m op c1 c2 := by
  rcases opcode_fields op with ⟨i, mode, hi, hm, rfl⟩ | ⟨i, hi, rfl⟩ | ⟨i, bit, hi, hb, rfl⟩
  · rw [opLength_multimode i mode hi hm] at h1 h2
    rw [formOf_multimode m i mode hi hm, formOf_multimode m i mode hi hm, h1 (by split <;> omega)]
    by_cases h : mode = 1 ∨ mode = 3 ∨ mode = 5
    · rw [h2 (by simp [h])]
    · obtain rfl | rfl | rfl | rfl | rfl : mode = 0 ∨ mode = 2 ∨ mode = 4 ∨ mode = 6 ∨ mode = 7 := by omega
      all_goals rfl
  · rw [formOf_implicit m i hi, formOf_implicit m i hi]
  · rw [opLength_branch i bit hi hb] at h1 h2
    rw [formOf_branch m i bit hi hb, formOf_branch m i bit hi hb, h1 (by omega)]
    obtain rfl | rfl : bit = 0 ∨ bit = 1 := by omega
    · rfl
    · rw [h2 (by omega)]

/-- The two bytes of a 16-bit value give it back. -/
@[simp] theorem word16_low_high (a : Addr) : word16 (lowByte a) (highByte a) = a := by
  unfold word16 lowByte highByte
  ext i hi
  simp only [BitVec.getElem_append, BitVec.getElem_extractLsb']
  split
  · simp [BitVec.getLsbD_eq_getElem hi]
  · rw [show 8 + (i - 8) = i by omega, BitVec.getLsbD_eq_getElem hi]

@[simp] theorem lowByte_word16 (lo hi : Byte) : lowByte (word16 lo hi) = lo := by
  unfold word16 lowByte
  ext i h
  rw [BitVec.getElem_extractLsb']
  refine (BitVec.getLsbD_append (x := hi) (y := lo)).trans ?_
  simp [h]

@[simp] theorem highByte_word16 (lo hi : Byte) : highByte (word16 lo hi) = hi := by
  unfold word16 highByte
  ext i h
  rw [BitVec.getElem_extractLsb']
  refine (BitVec.getLsbD_append (x := hi) (y := lo)).trans ?_
  simp [BitVec.getLsbD_eq_getElem h]

end Sys2Proof
end

