-- ==== Sys2Proof/Laws/Memory.lean ====
section
/-! SUPPORT. The laws of memory: a read after a write, the canonical form, and its uniqueness. -/

namespace Sys2Proof.Machine

@[simp] theorem cellAt_nil (a : Nat) : cellAt [] a = 0 := rfl

theorem cellAt_filter_other (es : List Host.Cell) {a b : Nat} (h : b ≠ a) :
    cellAt (es.filter fun e => e.1 != a) b = cellAt es b := by
  induction es with
  | nil => rfl
  | cons e es ih =>
    by_cases ha : e.1 = a
    · simp [cellAt, ha, ih, Ne.symm h]
    · by_cases hb : e.1 = b <;> simp [cellAt, ha, hb, ih, h]

theorem cellAt_filter_same (es : List Host.Cell) (a : Nat) :
    cellAt (es.filter fun e => e.1 != a) a = 0 := by
  induction es with
  | nil => rfl
  | cons e es ih => by_cases ha : e.1 = a <;> simp [cellAt, ha, ih]

theorem cellAt_insert_same (a : Nat) (v : Byte) (es : List Host.Cell) (h : ∀ e ∈ es, e.1 ≠ a) :
    cellAt (insertCell a v es) a = v := by
  induction es with
  | nil => simp [insertCell, cellAt]
  | cons e es ih =>
    have he : e.1 ≠ a := h e (by simp)
    by_cases hlt : a < e.1
    · simp [insertCell, cellAt, hlt]
    · simp [insertCell, cellAt, hlt, he, ih fun f hf => h f (by simp [hf])]

theorem cellAt_insert_other {a b : Nat} (v : Byte) (es : List Host.Cell) (h : b ≠ a) :
    cellAt (insertCell a v es) b = cellAt es b := by
  induction es with
  | nil => simp [insertCell, cellAt, Ne.symm h]
  | cons e es ih =>
    by_cases hlt : a < e.1
    · simp [insertCell, cellAt, hlt, Ne.symm h]
    · simp [insertCell, cellAt, hlt, ih]

/-- A byte written is the byte read back, for every cell list. -/
@[simp] theorem cellAt_setCell_same (es : List Host.Cell) (a : Nat) (v : Byte) : cellAt (setCell es a v) a = v := by
  unfold setCell
  by_cases hv : v = Config.unlistedByte
  · simp [hv, cellAt_filter_same]
  · simp only [hv, if_false]
    exact cellAt_insert_same a v _ fun e he => by simpa using (List.mem_filter.mp he).2

/-- A write leaves every other byte. -/
theorem cellAt_setCell_other (es : List Host.Cell) {a b : Nat} (v : Byte) (h : b ≠ a) :
    cellAt (setCell es a v) b = cellAt es b := by
  unfold setCell
  by_cases hv : v = Config.unlistedByte
  · simp [hv, cellAt_filter_other es h]
  · rw [if_neg hv, cellAt_insert_other v _ h, cellAt_filter_other es h]

theorem Memory.inBounds_iff (m : Memory) (a : Addr) : m.inBounds a = true ↔ m.size = 0 ∨ a.toNat < m.size := by
  simp [Memory.inBounds]

theorem Memory.inBounds_iff_limit (m : Memory) (a : Addr) : m.inBounds a = true ↔ a.toNat < m.limit := by
  have := a.isLt
  unfold Memory.limit
  by_cases h : m.size = 0
  · simp [Memory.inBounds, h]; omega
  · simp [Memory.inBounds, h]

@[simp] theorem Memory.store_size (m : Memory) (a : Addr) (v : Byte) : (m.store a v).size = m.size := by
  unfold Memory.store; split <;> rfl

@[simp] theorem Memory.store_limit (m : Memory) (a : Addr) (v : Byte) : (m.store a v).limit = m.limit := by
  simp [Memory.limit]

@[simp] theorem Memory.store_inBounds (m : Memory) (a b : Addr) (v : Byte) :
    (m.store a v).inBounds b = m.inBounds b := by
  simp [Memory.inBounds]

theorem Memory.read_eq (m : Memory) (a : Addr) :
    m.read a = if m.inBounds a then cellAt m.cells a.toNat else 0 := by
  simp only [Memory.read, Memory.byteAt, Memory.inBounds_iff_limit]

/-- A read after a write to the same address in bounds. -/
theorem Memory.read_store_same (m : Memory) (a : Addr) (v : Byte) (h : m.inBounds a = true) :
    (m.store a v).read a = v := by
  rw [Memory.read_eq, Memory.store_inBounds]
  simp [Memory.store, h]

/-- A write leaves what every other index holds, in bounds or not. -/
theorem Memory.byteAt_store_other (m : Memory) {a : Addr} {b : Nat} (v : Byte) (h : b ≠ a.toNat) :
    (m.store a v).byteAt b = m.byteAt b := by
  unfold Memory.byteAt
  rw [Memory.store_limit]
  by_cases ha : m.inBounds a = true
  · simp [Memory.store, ha, cellAt_setCell_other m.cells v h]
  · simp [Memory.store, ha]

/-- A write leaves what every other address reads as. -/
theorem Memory.read_store_other (m : Memory) {a b : Addr} (v : Byte) (h : b ≠ a) : (m.store a v).read b = m.read b :=
  Memory.byteAt_store_other m v fun e => h (BitVec.eq_of_toNat_eq e)

/-- A write out of bounds stores nothing. -/
theorem Memory.store_outOfBounds (m : Memory) (a : Addr) (v : Byte) (h : m.inBounds a = false) : m.store a v = m := by
  simp [Memory.store, h]

theorem rising_cons_iff (e : Host.Cell) (es : List Host.Cell) :
    rising (e :: es) = true ↔ (∀ f ∈ es, e.1 < f.1) ∧ rising es = true := by
  induction es generalizing e with
  | nil => simp [rising]
  | cons f es ih =>
    simp only [rising, Bool.and_eq_true, decide_eq_true_eq, List.mem_cons, forall_eq_or_imp]
    constructor
    · rintro ⟨h, hr⟩
      exact ⟨⟨h, fun g hg => lt_trans h (((ih f).mp hr).1 g hg)⟩, hr⟩
    · rintro ⟨⟨h, _⟩, hr⟩
      exact ⟨h, hr⟩

theorem mem_insertCell (a : Nat) (v : Byte) (es : List Host.Cell) (f : Host.Cell) :
    f ∈ insertCell a v es ↔ f = (a, v) ∨ f ∈ es := by
  induction es with
  | nil => simp [insertCell]
  | cons e es ih =>
    by_cases h : a < e.1
    · simp [insertCell, h]
    · simp only [insertCell, h, if_false, List.mem_cons, ih]; tauto

theorem rising_filter (es : List Host.Cell) (p : Host.Cell → Bool) (h : rising es = true) :
    rising (es.filter p) = true := by
  induction es with
  | nil => rfl
  | cons e es ih =>
    obtain ⟨hlt, hr⟩ := (rising_cons_iff e es).mp h
    by_cases hp : p e = true
    · rw [List.filter_cons_of_pos hp, rising_cons_iff]
      exact ⟨fun f hf => hlt f (List.mem_filter.mp hf).1, ih hr⟩
    · rw [List.filter_cons_of_neg (by simpa using hp)]
      exact ih hr

theorem rising_insertCell (a : Nat) (v : Byte) (es : List Host.Cell) (h : rising es = true)
    (hne : ∀ e ∈ es, e.1 ≠ a) : rising (insertCell a v es) = true := by
  induction es with
  | nil => rfl
  | cons e es ih =>
    obtain ⟨hlt, hr⟩ := (rising_cons_iff e es).mp h
    have he := hne e (by simp)
    by_cases hc : a < e.1
    · rw [insertCell, if_pos hc, rising_cons_iff, rising_cons_iff]
      simp only [List.mem_cons, forall_eq_or_imp]
      exact ⟨⟨hc, fun f hf => lt_trans hc (hlt f hf)⟩, hlt, hr⟩
    · simp only [insertCell, hc, if_false, rising_cons_iff, mem_insertCell, forall_eq_or_imp]
      exact ⟨⟨by omega, hlt⟩, ih hr fun f hf => hne f (by simp [hf])⟩

/-- The canonical form in terms of its cells. -/
theorem Memory.wf_iff (m : Memory) :
    m.wf = true ↔ m.size ≤ 65536 ∧ rising m.cells = true ∧ ∀ e ∈ m.cells, e.1 < m.limit ∧ e.2 ≠ Config.unlistedByte := by
  simp [Memory.wf, and_assoc]

/-- Every write keeps the canonical form. -/
theorem Memory.wf_store (m : Memory) (a : Addr) (v : Byte) (h : m.wf = true) : (m.store a v).wf = true := by
  by_cases ha : m.inBounds a = true
  swap
  · rw [Memory.store_outOfBounds m a v (by simpa using ha)]; exact h
  obtain ⟨hs, hr, hc⟩ := (Memory.wf_iff m).mp h
  have hf := rising_filter m.cells (fun e => e.1 != a.toNat) hr
  rw [Memory.wf_iff, Memory.store_size, Memory.store_limit]
  refine ⟨hs, ?_⟩
  simp only [Memory.store, ha, if_true, setCell]
  by_cases hv : v = Config.unlistedByte
  · simp only [hv, if_true]
    exact ⟨hf, fun e he => hc e (List.mem_filter.mp he).1⟩
  · simp only [hv, if_false]
    refine ⟨rising_insertCell _ _ _ hf fun e he => by simpa using (List.mem_filter.mp he).2, fun e he => ?_⟩
    rcases (mem_insertCell _ _ _ _).mp he with rfl | he
    · exact ⟨(Memory.inBounds_iff_limit m a).mp ha, hv⟩
    · exact hc e (List.mem_filter.mp he).1

@[simp] theorem Memory.storeBytes_size (m : Memory) (a : Addr) (bs : List Byte) : (m.storeBytes a bs).size = m.size := by
  induction bs generalizing m a with
  | nil => rfl
  | cons b bs ih => simp [Memory.storeBytes, ih]

/-- Storing a run of bytes keeps the canonical form. -/
theorem Memory.wf_storeBytes (m : Memory) (a : Addr) (bs : List Byte) (h : m.wf = true) :
    (m.storeBytes a bs).wf = true := by
  induction bs generalizing m a with
  | nil => exact h
  | cons b bs ih => exact ih _ _ (Memory.wf_store m a b h)

/-- The port create answers memories in canonical form. -/
theorem Memory.wf_create {size : Nat} {initial : List Byte} {m : Memory} (h : Memory.create size initial = some m) :
    m.wf = true := by
  simp only [Memory.create, Option.ite_none_right_eq_some, Option.some.injEq] at h
  obtain ⟨⟨hs, _⟩, rfl⟩ := h
  exact Memory.wf_storeBytes _ _ _ (by simp [Memory.wf, rising, hs])

/-- The port load keeps the canonical form and the size. -/
theorem Memory.wf_load {m m' : Memory} {origin : Addr} {bytes : List Byte} (hm : m.wf = true)
    (h : m.load origin bytes = some m') : m'.wf = true ∧ m'.size = m.size := by
  simp only [Memory.load, Option.ite_none_right_eq_some, Option.some.injEq] at h
  obtain ⟨_, rfl⟩ := h
  exact ⟨Memory.wf_storeBytes _ _ _ hm, by simp⟩

/-- Memory after reset is in canonical form. -/
theorem State.reset_mem_wf : State.reset.mem.wf = true := by decide

theorem cellAt_of_lt (es : List Host.Cell) (a : Nat) (h : ∀ f ∈ es, a < f.1) : cellAt es a = 0 := by
  induction es with
  | nil => rfl
  | cons e es ih =>
    have := h e (by simp)
    simp [cellAt, show e.1 ≠ a by omega, ih fun f hf => h f (by simp [hf])]

theorem cells_ext (es fs : List Host.Cell) (he : rising es = true) (hf : rising fs = true)
    (ze : ∀ e ∈ es, e.2 ≠ (0 : Byte)) (zf : ∀ e ∈ fs, e.2 ≠ (0 : Byte)) (h : ∀ a, cellAt es a = cellAt fs a) :
    es = fs := by
  induction es generalizing fs with
  | nil =>
    cases fs with
    | nil => rfl
    | cons f fs => exact absurd (by simpa [cellAt] using (h f.1).symm) (zf f (by simp))
  | cons e es ih =>
    obtain ⟨hle, hre⟩ := (rising_cons_iff e es).mp he
    cases fs with
    | nil => exact absurd (by simpa [cellAt] using h e.1) (ze e (by simp))
    | cons f fs =>
      obtain ⟨hlf, hrf⟩ := (rising_cons_iff f fs).mp hf
      have h1 : e.1 = f.1 := by
        rcases lt_trichotomy e.1 f.1 with hl | hl | hl
        · have := h e.1
          rw [cellAt_of_lt (f :: fs) e.1 (by
            simp only [List.mem_cons, forall_eq_or_imp]; exact ⟨hl, fun g hg => lt_trans hl (hlf g hg)⟩)] at this
          exact absurd (by simpa [cellAt] using this) (ze e (by simp))
        · exact hl
        · have := h f.1
          rw [cellAt_of_lt (e :: es) f.1 (by
            simp only [List.mem_cons, forall_eq_or_imp]; exact ⟨hl, fun g hg => lt_trans hl (hle g hg)⟩)] at this
          exact absurd (by simpa [cellAt] using this.symm) (zf f (by simp))
      have h2 : e.2 = f.2 := by simpa [cellAt, h1] using h f.1
      rw [Prod.ext h1 h2, ih fs hre hrf (fun g hg => ze g (by simp [hg])) (fun g hg => zf g (by simp [hg]))]
      intro a
      by_cases ha : f.1 = a
      · subst ha
        rw [cellAt_of_lt es _ fun g hg => h1 ▸ hle g hg, cellAt_of_lt fs _ hlf]
      · simpa [cellAt, h1, ha] using h a

/-- Two memories in canonical form, of one size, that read alike at every address are equal. -/
theorem Memory.ext_of_read (m k : Memory) (hm : m.wf = true) (hk : k.wf = true) (hs : m.size = k.size)
    (h : ∀ a, m.read a = k.read a) : m = k := by
  obtain ⟨hms, hmr, hmc⟩ := (Memory.wf_iff m).mp hm
  obtain ⟨_, hkr, hkc⟩ := (Memory.wf_iff k).mp hk
  have hlim : m.limit = k.limit := by simp [Memory.limit, hs]
  have hl : m.limit ≤ 65536 := by unfold Memory.limit; split <;> omega
  have out : ∀ (q : Memory), (∀ e ∈ q.cells, e.1 < q.limit ∧ e.2 ≠ Config.unlistedByte) → ∀ a, ¬a < q.limit →
      cellAt q.cells a = 0 := by
    intro q hq a ha
    generalize hc : q.cells = es at hq
    clear hc
    induction es with
    | nil => rfl
    | cons e es ih =>
      have h1 := (hq e (by simp)).1
      simp [cellAt, show e.1 ≠ a by omega, ih fun f hf => hq f (by simp [hf])]
  have hc : m.cells = k.cells := by
    refine cells_ext _ _ hmr hkr (fun e he => (hmc e he).2) (fun e he => (hkc e he).2) fun a => ?_
    by_cases ha : a < m.limit
    · have := h (BitVec.ofNat 16 a)
      simpa [Memory.read, Memory.byteAt, BitVec.toNat_ofNat, Nat.mod_eq_of_lt (show a < 65536 by omega), ha, hlim ▸ ha]
        using this
    · rw [out m hmc a ha, out k hkc a (hlim ▸ ha)]
  cases m; cases k; simp_all

end Sys2Proof.Machine
end

