-- ==== Sys2Proof/Laws/State.lean ====
section
/-! SUPPORT. What each field of the state is after each named update: one lemma per field per update. -/

namespace Sys2Proof.Machine

section
variable (s : State) (e : Cause)
@[simp] theorem State.halt_a : (s.halt e).a = s.a := rfl
@[simp] theorem State.halt_x : (s.halt e).x = s.x := rfl
@[simp] theorem State.halt_y : (s.halt e).y = s.y := rfl
@[simp] theorem State.halt_z : (s.halt e).z = s.z := rfl
@[simp] theorem State.halt_n : (s.halt e).n = s.n := rfl
@[simp] theorem State.halt_c : (s.halt e).c = s.c := rfl
@[simp] theorem State.halt_pc : (s.halt e).pc = s.pc := rfl
@[simp] theorem State.halt_sp : (s.halt e).sp = s.sp := rfl
@[simp] theorem State.halt_stack : (s.halt e).stack = s.stack := rfl
@[simp] theorem State.halt_mem : (s.halt e).mem = s.mem := rfl
@[simp] theorem State.halt_status : (s.halt e).status = .halted e := rfl
@[simp] theorem State.halt_out : (s.halt e).out = s.out := rfl
@[simp] theorem State.halt_translator : (s.halt e).translator = s.translator := rfl
@[simp] theorem State.halt_params : (s.halt e).params = s.params := rfl
end

section
variable (s : State) (p : Addr)
@[simp] theorem State.withPc_a : (s.withPc p).a = s.a := rfl
@[simp] theorem State.withPc_x : (s.withPc p).x = s.x := rfl
@[simp] theorem State.withPc_y : (s.withPc p).y = s.y := rfl
@[simp] theorem State.withPc_z : (s.withPc p).z = s.z := rfl
@[simp] theorem State.withPc_n : (s.withPc p).n = s.n := rfl
@[simp] theorem State.withPc_c : (s.withPc p).c = s.c := rfl
@[simp] theorem State.withPc_pc : (s.withPc p).pc = p := rfl
@[simp] theorem State.withPc_sp : (s.withPc p).sp = s.sp := rfl
@[simp] theorem State.withPc_stack : (s.withPc p).stack = s.stack := rfl
@[simp] theorem State.withPc_mem : (s.withPc p).mem = s.mem := rfl
@[simp] theorem State.withPc_status : (s.withPc p).status = s.status := rfl
@[simp] theorem State.withPc_out : (s.withPc p).out = s.out := rfl
@[simp] theorem State.withPc_translator : (s.withPc p).translator = s.translator := rfl
@[simp] theorem State.withPc_params : (s.withPc p).params = s.params := rfl
end

section
variable (s : State) (p : Addr) (b : Byte)
@[simp] theorem State.noteOpcode_a : (s.noteOpcode p b).a = s.a := rfl
@[simp] theorem State.noteOpcode_x : (s.noteOpcode p b).x = s.x := rfl
@[simp] theorem State.noteOpcode_y : (s.noteOpcode p b).y = s.y := rfl
@[simp] theorem State.noteOpcode_z : (s.noteOpcode p b).z = s.z := rfl
@[simp] theorem State.noteOpcode_n : (s.noteOpcode p b).n = s.n := rfl
@[simp] theorem State.noteOpcode_c : (s.noteOpcode p b).c = s.c := rfl
@[simp] theorem State.noteOpcode_pc : (s.noteOpcode p b).pc = s.pc := rfl
@[simp] theorem State.noteOpcode_sp : (s.noteOpcode p b).sp = s.sp := rfl
@[simp] theorem State.noteOpcode_stack : (s.noteOpcode p b).stack = s.stack := rfl
@[simp] theorem State.noteOpcode_mem : (s.noteOpcode p b).mem = s.mem := rfl
@[simp] theorem State.noteOpcode_status : (s.noteOpcode p b).status = s.status := rfl
@[simp] theorem State.noteOpcode_out : (s.noteOpcode p b).out = s.out := rfl
@[simp] theorem State.noteOpcode_translator : (s.noteOpcode p b).translator = s.translator.map fun t => t.onOpcodeFetch p b := rfl
@[simp] theorem State.noteOpcode_params : (s.noteOpcode p b).params = s.params := rfl
end

section
variable (s : State) (p : Addr) (b : Byte)
@[simp] theorem State.store_a : (s.store p b).a = s.a := rfl
@[simp] theorem State.store_x : (s.store p b).x = s.x := rfl
@[simp] theorem State.store_y : (s.store p b).y = s.y := rfl
@[simp] theorem State.store_z : (s.store p b).z = s.z := rfl
@[simp] theorem State.store_n : (s.store p b).n = s.n := rfl
@[simp] theorem State.store_c : (s.store p b).c = s.c := rfl
@[simp] theorem State.store_pc : (s.store p b).pc = s.pc := rfl
@[simp] theorem State.store_sp : (s.store p b).sp = s.sp := rfl
@[simp] theorem State.store_stack : (s.store p b).stack = s.stack := rfl
@[simp] theorem State.store_mem : (s.store p b).mem = s.mem.store p b := rfl
@[simp] theorem State.store_status : (s.store p b).status = s.status := rfl
@[simp] theorem State.store_out : (s.store p b).out = s.out := rfl
@[simp] theorem State.store_translator : (s.store p b).translator = s.translator.map fun t => t.onDataWrite p b := rfl
@[simp] theorem State.store_params : (s.store p b).params = s.params := rfl
end

section
variable (s : State) (bs : List Byte)
@[simp] theorem State.emit_a : (s.emit bs).a = s.a := rfl
@[simp] theorem State.emit_x : (s.emit bs).x = s.x := rfl
@[simp] theorem State.emit_y : (s.emit bs).y = s.y := rfl
@[simp] theorem State.emit_z : (s.emit bs).z = s.z := rfl
@[simp] theorem State.emit_n : (s.emit bs).n = s.n := rfl
@[simp] theorem State.emit_c : (s.emit bs).c = s.c := rfl
@[simp] theorem State.emit_pc : (s.emit bs).pc = s.pc := rfl
@[simp] theorem State.emit_sp : (s.emit bs).sp = s.sp := rfl
@[simp] theorem State.emit_stack : (s.emit bs).stack = s.stack := rfl
@[simp] theorem State.emit_mem : (s.emit bs).mem = s.mem := rfl
@[simp] theorem State.emit_status : (s.emit bs).status = s.status := rfl
@[simp] theorem State.emit_out : (s.emit bs).out = s.out ++ bs := rfl
@[simp] theorem State.emit_translator : (s.emit bs).translator = s.translator := rfl
@[simp] theorem State.emit_params : (s.emit bs).params = s.params := rfl
end

section
variable (s : State) (b : Byte)
@[simp] theorem State.setZN_a : (s.setZN b).a = s.a := rfl
@[simp] theorem State.setZN_x : (s.setZN b).x = s.x := rfl
@[simp] theorem State.setZN_y : (s.setZN b).y = s.y := rfl
@[simp] theorem State.setZN_z : (s.setZN b).z = decide (b = 0) := rfl
@[simp] theorem State.setZN_n : (s.setZN b).n = b.msb := rfl
@[simp] theorem State.setZN_c : (s.setZN b).c = s.c := rfl
@[simp] theorem State.setZN_pc : (s.setZN b).pc = s.pc := rfl
@[simp] theorem State.setZN_sp : (s.setZN b).sp = s.sp := rfl
@[simp] theorem State.setZN_stack : (s.setZN b).stack = s.stack := rfl
@[simp] theorem State.setZN_mem : (s.setZN b).mem = s.mem := rfl
@[simp] theorem State.setZN_status : (s.setZN b).status = s.status := rfl
@[simp] theorem State.setZN_out : (s.setZN b).out = s.out := rfl
@[simp] theorem State.setZN_translator : (s.setZN b).translator = s.translator := rfl
@[simp] theorem State.setZN_params : (s.setZN b).params = s.params := rfl
end

section
variable (s : State) (k : Bool)
@[simp] theorem State.setC_a : (s.setC k).a = s.a := rfl
@[simp] theorem State.setC_x : (s.setC k).x = s.x := rfl
@[simp] theorem State.setC_y : (s.setC k).y = s.y := rfl
@[simp] theorem State.setC_z : (s.setC k).z = s.z := rfl
@[simp] theorem State.setC_n : (s.setC k).n = s.n := rfl
@[simp] theorem State.setC_c : (s.setC k).c = k := rfl
@[simp] theorem State.setC_pc : (s.setC k).pc = s.pc := rfl
@[simp] theorem State.setC_sp : (s.setC k).sp = s.sp := rfl
@[simp] theorem State.setC_stack : (s.setC k).stack = s.stack := rfl
@[simp] theorem State.setC_mem : (s.setC k).mem = s.mem := rfl
@[simp] theorem State.setC_status : (s.setC k).status = s.status := rfl
@[simp] theorem State.setC_out : (s.setC k).out = s.out := rfl
@[simp] theorem State.setC_translator : (s.setC k).translator = s.translator := rfl
@[simp] theorem State.setC_params : (s.setC k).params = s.params := rfl
end

section
variable (s : State) (b : Byte)
@[simp] theorem State.loadA_a : (s.loadA b).a = b := rfl
@[simp] theorem State.loadA_x : (s.loadA b).x = s.x := rfl
@[simp] theorem State.loadA_y : (s.loadA b).y = s.y := rfl
@[simp] theorem State.loadA_z : (s.loadA b).z = decide (b = 0) := rfl
@[simp] theorem State.loadA_n : (s.loadA b).n = b.msb := rfl
@[simp] theorem State.loadA_c : (s.loadA b).c = s.c := rfl
@[simp] theorem State.loadA_pc : (s.loadA b).pc = s.pc := rfl
@[simp] theorem State.loadA_sp : (s.loadA b).sp = s.sp := rfl
@[simp] theorem State.loadA_stack : (s.loadA b).stack = s.stack := rfl
@[simp] theorem State.loadA_mem : (s.loadA b).mem = s.mem := rfl
@[simp] theorem State.loadA_status : (s.loadA b).status = s.status := rfl
@[simp] theorem State.loadA_out : (s.loadA b).out = s.out := rfl
@[simp] theorem State.loadA_translator : (s.loadA b).translator = s.translator := rfl
@[simp] theorem State.loadA_params : (s.loadA b).params = s.params := rfl
end

section
variable (s : State) (b : Byte)
@[simp] theorem State.loadX_a : (s.loadX b).a = s.a := rfl
@[simp] theorem State.loadX_x : (s.loadX b).x = b := rfl
@[simp] theorem State.loadX_y : (s.loadX b).y = s.y := rfl
@[simp] theorem State.loadX_z : (s.loadX b).z = decide (b = 0) := rfl
@[simp] theorem State.loadX_n : (s.loadX b).n = b.msb := rfl
@[simp] theorem State.loadX_c : (s.loadX b).c = s.c := rfl
@[simp] theorem State.loadX_pc : (s.loadX b).pc = s.pc := rfl
@[simp] theorem State.loadX_sp : (s.loadX b).sp = s.sp := rfl
@[simp] theorem State.loadX_stack : (s.loadX b).stack = s.stack := rfl
@[simp] theorem State.loadX_mem : (s.loadX b).mem = s.mem := rfl
@[simp] theorem State.loadX_status : (s.loadX b).status = s.status := rfl
@[simp] theorem State.loadX_out : (s.loadX b).out = s.out := rfl
@[simp] theorem State.loadX_translator : (s.loadX b).translator = s.translator := rfl
@[simp] theorem State.loadX_params : (s.loadX b).params = s.params := rfl
end

section
variable (s : State) (b : Byte)
@[simp] theorem State.loadY_a : (s.loadY b).a = s.a := rfl
@[simp] theorem State.loadY_x : (s.loadY b).x = s.x := rfl
@[simp] theorem State.loadY_y : (s.loadY b).y = b := rfl
@[simp] theorem State.loadY_z : (s.loadY b).z = decide (b = 0) := rfl
@[simp] theorem State.loadY_n : (s.loadY b).n = b.msb := rfl
@[simp] theorem State.loadY_c : (s.loadY b).c = s.c := rfl
@[simp] theorem State.loadY_pc : (s.loadY b).pc = s.pc := rfl
@[simp] theorem State.loadY_sp : (s.loadY b).sp = s.sp := rfl
@[simp] theorem State.loadY_stack : (s.loadY b).stack = s.stack := rfl
@[simp] theorem State.loadY_mem : (s.loadY b).mem = s.mem := rfl
@[simp] theorem State.loadY_status : (s.loadY b).status = s.status := rfl
@[simp] theorem State.loadY_out : (s.loadY b).out = s.out := rfl
@[simp] theorem State.loadY_translator : (s.loadY b).translator = s.translator := rfl
@[simp] theorem State.loadY_params : (s.loadY b).params = s.params := rfl
end

end Sys2Proof.Machine
end

