-- ==== Sys2Proof/Laws/Ops.lean ====
section
/-! SUPPORT. For each named operation, one lemma that says everything it can answer. -/

namespace Sys2Proof.Machine

theorem memRead_ok_iff (a : Addr) (s : State) (b : Byte) :
    s.memRead a = .ok b ↔ s.mem.inBounds a = true ∧ b = s.mem.read a := by
  unfold State.memRead
  by_cases h : s.mem.inBounds a = true <;> simp [h, eq_comm]

theorem memRead_error_iff (a : Addr) (s : State) (e : Nat) :
    s.memRead a = .error e ↔ s.mem.inBounds a = false ∧ e = a.toNat := by
  unfold State.memRead
  by_cases h : s.mem.inBounds a = true <;> simp [h, eq_comm]

theorem fetchByte_ok_iff (s t : State) (b : Byte) :
    fetchByte s = .ok (b, t) ↔ s.mem.inBounds s.pc = true ∧ b = s.mem.read s.pc ∧ t = s.withPc (s.pc + 1) := by
  unfold fetchByte
  by_cases h : s.mem.inBounds s.pc = true <;> simp [h, eq_comm]

theorem fetchByte_error_iff (s t : State) :
    fetchByte s = .error t ↔ s.mem.inBounds s.pc = false ∧ t = s.halt (.outOfBounds s.pc.toNat) := by
  unfold fetchByte
  by_cases h : s.mem.inBounds s.pc = true <;> simp [h, eq_comm]

theorem fetchOpcode_ok_iff (s t : State) (op : Byte) :
    fetchOpcode s = .ok (op, t) ↔
      s.mem.inBounds s.pc = true ∧ op = s.translate (s.mem.read s.pc)
        ∧ t = (s.withPc (s.pc + 1)).noteOpcode s.pc (s.translate (s.mem.read s.pc)) := by
  unfold fetchOpcode fetchByte
  by_cases h : s.mem.inBounds s.pc = true <;> simp [h, eq_comm]

theorem fetchOpcode_error_iff (s t : State) :
    fetchOpcode s = .error t ↔ s.mem.inBounds s.pc = false ∧ t = s.halt (.outOfBounds s.pc.toNat) := by
  unfold fetchOpcode fetchByte
  by_cases h : s.mem.inBounds s.pc = true <;> simp [h, eq_comm]

/-- The length of an instruction is 1, 2 or 3. -/
theorem opLength_cases (op : Byte) : opLength op = 1 ∨ opLength op = 2 ∨ opLength op = 3 := by
  unfold opLength
  split <;> try split
  all_goals simp

/-- An instruction was fetched: the opcode byte was in bounds, the translator recorded it, and `pc` has moved past the
instruction's bytes, all of them in bounds; the operand bytes are the live bytes there; nothing else changed. -/
theorem fetchInstr_ok {s t : State} {i : Instr} (h : fetchInstr s = .ok (i, t)) :
    ∃ b1 b2, i = build s.params.numbering (s.translate (s.mem.read s.pc)) b1 b2
      ∧ t = (s.noteOpcode s.pc (s.translate (s.mem.read s.pc))).withPc
          (s.pc + BitVec.ofNat 16 (opLength (s.translate (s.mem.read s.pc))))
      ∧ (∀ k, k < opLength (s.translate (s.mem.read s.pc)) → s.mem.inBounds (s.pc + BitVec.ofNat 16 k) = true)
      ∧ (2 ≤ opLength (s.translate (s.mem.read s.pc)) → b1 = s.mem.read (s.pc + 1))
      ∧ (3 ≤ opLength (s.translate (s.mem.read s.pc)) → b2 = s.mem.read (s.pc + 2)) := by
  unfold fetchInstr at h
  cases ho : fetchOpcode s with
  | error e => simp [ho] at h
  | ok r =>
    obtain ⟨op, s1⟩ := r
    obtain ⟨hb, rfl, rfl⟩ := (fetchOpcode_ok_iff s s1 op).mp ho
    simp only [ho] at h
    generalize hop : s.translate (s.mem.read s.pc) = op at h ⊢
    have h0 : s.mem.inBounds (s.pc + 0#16) = true := by simpa using hb
    rcases opLength_cases op with hl | hl | hl
    · simp only [hl, Except.ok.injEq, Prod.mk.injEq] at h
      obtain ⟨rfl, rfl⟩ := h
      refine ⟨0, 0, rfl, by rw [hl]; rfl, fun k hk => ?_, by omega, by omega⟩
      rw [hl] at hk
      obtain rfl : k = 0 := by omega
      exact h0
    · simp only [hl] at h
      cases h1 : fetchByte ((s.withPc (s.pc + 1)).noteOpcode s.pc op) with
      | error e => rw [h1] at h; cases h
      | ok r =>
        obtain ⟨b1, s2⟩ := r
        obtain ⟨hb1, rfl, rfl⟩ := (fetchByte_ok_iff _ _ _).mp h1
        simp only [h1, Except.ok.injEq, Prod.mk.injEq] at h
        obtain ⟨rfl, rfl⟩ := h
        refine ⟨_, 0, rfl, ?_, fun k hk => ?_, fun _ => rfl, by omega⟩
        · simp [State.withPc, State.noteOpcode, hl, BitVec.add_assoc]
        · rw [hl] at hk
          obtain rfl | rfl : k = 0 ∨ k = 1 := by omega
          · exact h0
          · simpa using hb1
    · simp only [hl] at h
      cases h1 : fetchByte ((s.withPc (s.pc + 1)).noteOpcode s.pc op) with
      | error e => rw [h1] at h; cases h
      | ok r =>
        obtain ⟨b1, s2⟩ := r
        obtain ⟨hb1, rfl, rfl⟩ := (fetchByte_ok_iff _ _ _).mp h1
        simp only [h1] at h
        generalize hs2 : ((s.withPc (s.pc + 1)).noteOpcode s.pc op).withPc
          (((s.withPc (s.pc + 1)).noteOpcode s.pc op).pc + 1) = s2 at h
        cases h2 : fetchByte s2 with
        | error e => rw [h2] at h; cases h
        | ok r =>
          obtain ⟨b2, s3⟩ := r
          obtain ⟨hb2, rfl, rfl⟩ := (fetchByte_ok_iff _ _ _).mp h2
          simp only [h2, Except.ok.injEq, Prod.mk.injEq] at h
          obtain ⟨rfl, rfl⟩ := h
          subst hs2
          refine ⟨_, _, rfl, ?_, fun k hk => ?_, fun _ => rfl, fun _ => by simp [BitVec.add_assoc]⟩
          · simp [State.withPc, State.noteOpcode, hl, BitVec.add_assoc]
          · rw [hl] at hk
            obtain rfl | rfl | rfl : k = 0 ∨ k = 1 ∨ k = 2 := by omega
            · exact h0
            · simpa using hb1
            · simpa [BitVec.add_assoc] using hb2

/-- No instruction was fetched: the step halts at the first byte out of bounds. Nothing was recorded when that byte is
the opcode byte; otherwise the opcode fetch was, and `pc` stands at the byte that is missing. -/
theorem fetchInstr_error {s h : State} (hf : fetchInstr s = .error h) :
    (s.mem.inBounds s.pc = false ∧ h = s.halt (.outOfBounds s.pc.toNat))
      ∨ ∃ k, 1 ≤ k ∧ k < opLength (s.translate (s.mem.read s.pc))
          ∧ (∀ j, j < k → s.mem.inBounds (s.pc + BitVec.ofNat 16 j) = true)
          ∧ s.mem.inBounds (s.pc + BitVec.ofNat 16 k) = false
          ∧ h = ((s.noteOpcode s.pc (s.translate (s.mem.read s.pc))).withPc (s.pc + BitVec.ofNat 16 k)).halt
              (.outOfBounds (s.pc + BitVec.ofNat 16 k).toNat) := by
  unfold fetchInstr at hf
  cases ho : fetchOpcode s with
  | error e =>
    simp only [ho, Except.error.injEq] at hf
    exact .inl (hf ▸ (fetchOpcode_error_iff s e).mp ho)
  | ok r =>
    obtain ⟨op, s1⟩ := r
    obtain ⟨hb, rfl, rfl⟩ := (fetchOpcode_ok_iff s s1 op).mp ho
    simp only [ho] at hf
    generalize hop : s.translate (s.mem.read s.pc) = op at hf ⊢
    have h0 : ∀ j, j < 1 → s.mem.inBounds (s.pc + BitVec.ofNat 16 j) = true := by
      intro j hj
      obtain rfl : j = 0 := by omega
      simpa using hb
    right
    rcases opLength_cases op with hl | hl | hl
    · simp [hl] at hf
    · simp only [hl] at hf
      cases h1 : fetchByte ((s.withPc (s.pc + 1)).noteOpcode s.pc op) with
      | ok r => rw [h1] at hf; cases hf
      | error e =>
        obtain ⟨he, rfl⟩ := (fetchByte_error_iff _ _).mp h1
        simp only [h1, Except.error.injEq] at hf
        exact ⟨1, le_refl 1, by omega, h0, by simpa using he, hf.symm⟩
    · simp only [hl] at hf
      cases h1 : fetchByte ((s.withPc (s.pc + 1)).noteOpcode s.pc op) with
      | error e =>
        obtain ⟨he, rfl⟩ := (fetchByte_error_iff _ _).mp h1
        simp only [h1, Except.error.injEq] at hf
        exact ⟨1, le_refl 1, by omega, h0, by simpa using he, hf.symm⟩
      | ok r =>
        obtain ⟨b1, s2⟩ := r
        obtain ⟨hb1, rfl, rfl⟩ := (fetchByte_ok_iff _ _ _).mp h1
        simp only [h1] at hf
        generalize hs2 : ((s.withPc (s.pc + 1)).noteOpcode s.pc op).withPc
          (((s.withPc (s.pc + 1)).noteOpcode s.pc op).pc + 1) = s2 at hf
        cases h2 : fetchByte s2 with
        | ok r => rw [h2] at hf; cases hf
        | error e =>
          obtain ⟨he, rfl⟩ := (fetchByte_error_iff _ _).mp h2
          simp only [h2, Except.error.injEq] at hf
          subst hs2
          refine ⟨2, by omega, by omega, fun j hj => ?_, by simpa [BitVec.add_assoc] using he, ?_⟩
          · obtain hj | rfl : j < 1 ∨ j = 1 := by omega
            · exact h0 j hj
            · simpa using hb1
          · rw [← hf]
            simp [State.withPc, State.noteOpcode, State.halt, BitVec.add_assoc]

theorem push_ok_iff (v : Byte) (s t : State) :
    push v s = .ok t ↔ ∃ h : s.sp < 256, t = { s with stack := s.stack.set s.sp v, sp := s.sp + 1 } := by
  unfold push
  by_cases h : s.sp < 256 <;> simp [h, eq_comm]

theorem push_error_iff (v : Byte) (s t : State) : push v s = .error t ↔ 256 ≤ s.sp ∧ t = s.halt .stackOverflow := by
  unfold push
  by_cases h : s.sp < 256
  · simp [h, show ¬256 ≤ s.sp by omega]
  · simp [h, show 256 ≤ s.sp by omega, eq_comm]

theorem pop_ok_iff (s t : State) (v : Byte) :
    pop s = .ok (v, t) ↔ s.sp ≠ 0 ∧ v = s.stack[s.sp - 1]?.getD 0 ∧ t = { s with sp := s.sp - 1 } := by
  unfold pop
  by_cases h : s.sp = 0 <;> simp [h, eq_comm]

theorem pop_error_iff (s t : State) : pop s = .error t ↔ s.sp = 0 ∧ t = s.halt .stackUnderflow := by
  unfold pop
  by_cases h : s.sp = 0 <;> simp [h, eq_comm]

end Sys2Proof.Machine
end

