-- ==== Sys2Proof/Laws/Operands.lean ====
section
/-! SUPPORT. For each shared way of using an operand or a target, one lemma that says everything it can answer. -/

namespace Sys2Proof.Machine

open Host (Outcome)

/-- An effective address that passed the check is in bounds. -/
theorem effectiveAddr_inBounds {o : Operand} {s : State} {ea : Addr} (h : effectiveAddr o s = .ok ea) :
    s.mem.inBounds ea = true := by
  unfold effectiveAddr at h
  cases hr : resolve o s with
  | error a => simp [hr] at h
  | ok b =>
    by_cases hb : s.mem.inBounds b = true
    · simp only [hr, hb, if_true, Except.ok.injEq] at h
      exact h ▸ hb
    · simp [hr, hb] at h

/-- The effective address is the resolved one. -/
theorem effectiveAddr_ok_iff (o : Operand) (s : State) (ea : Addr) :
    effectiveAddr o s = .ok ea ↔ resolve o s = .ok ea ∧ s.mem.inBounds ea = true := by
  unfold effectiveAddr
  cases hr : resolve o s with
  | error a => simp
  | ok b => by_cases hb : s.mem.inBounds b = true <;> simp [hb] <;> (try rintro rfl) <;> simp_all

/-- A multimode instruction runs on its effective address or halts on an address out of bounds. -/
theorem withOperand_next {o : Operand} {s t : State} {k : Addr → Outcome State Fault Refusal}
    (h : withOperand o s k = .next t) :
    (∃ a, effectiveAddr o s = .error a ∧ t = s.halt (.outOfBounds a))
      ∨ ∃ ea, effectiveAddr o s = .ok ea ∧ s.mem.inBounds ea = true ∧ k ea = .next t := by
  unfold withOperand at h
  cases he : effectiveAddr o s with
  | error a =>
    simp only [he, raise, Outcome.next.injEq] at h
    exact .inl ⟨a, rfl, h.symm⟩
  | ok ea =>
    simp only [he] at h
    exact .inr ⟨ea, rfl, effectiveAddr_inBounds he, h⟩

/-- A reading operation. -/
theorem reading_next {o : Operand} {s t : State} {f : Byte → State} (h : reading o s f = .next t) :
    (∃ a, effectiveAddr o s = .error a ∧ t = s.halt (.outOfBounds a))
      ∨ ∃ ea, effectiveAddr o s = .ok ea ∧ s.mem.inBounds ea = true ∧ t = f (s.mem.read ea) := by
  rcases withOperand_next h with h | ⟨ea, h1, h2, h3⟩
  · exact .inl h
  · exact .inr ⟨ea, h1, h2, (Outcome.next.inj h3).symm⟩

/-- A storing operation. -/
theorem storing_next {o : Operand} {s t : State} {v : Byte} (h : storing o s v = .next t) :
    (∃ a, effectiveAddr o s = .error a ∧ t = s.halt (.outOfBounds a))
      ∨ ∃ ea, effectiveAddr o s = .ok ea ∧ s.mem.inBounds ea = true ∧ t = s.store ea v := by
  rcases withOperand_next h with h | ⟨ea, h1, h2, h3⟩
  · exact .inl h
  · exact .inr ⟨ea, h1, h2, (Outcome.next.inj h3).symm⟩

/-- A read-modify-write operation. -/
theorem modifying_next {o : Operand} {s t : State} {f : Byte → Byte} {k : Byte → State → State}
    (h : modifying o s f k = .next t) :
    (∃ a, effectiveAddr o s = .error a ∧ t = s.halt (.outOfBounds a))
      ∨ ∃ ea, effectiveAddr o s = .ok ea ∧ s.mem.inBounds ea = true
          ∧ t = k (s.mem.read ea) (s.store ea (f (s.mem.read ea))) := by
  rcases withOperand_next h with h | ⟨ea, h1, h2, h3⟩
  · exact .inl h
  · exact .inr ⟨ea, h1, h2, (Outcome.next.inj h3).symm⟩

/-- A branch runs on its target or halts on a target out of bounds. -/
theorem withTarget_next {g : Target} {s t : State} {k : Addr → Outcome State Fault Refusal}
    (h : withTarget g s k = .next t) :
    (s.mem.inBounds (resolveTarget g s) = false ∧ t = s.halt (.outOfBounds (resolveTarget g s).toNat))
      ∨ (s.mem.inBounds (resolveTarget g s) = true ∧ k (resolveTarget g s) = .next t) := by
  unfold withTarget at h
  by_cases hb : s.mem.inBounds (resolveTarget g s) = true
  · simp only [hb, if_true] at h
    exact .inr ⟨hb, h⟩
  · simp only [hb, raise] at h
    exact .inl ⟨by simpa using hb, (Outcome.next.inj h).symm⟩

/-- A conditional branch. -/
theorem branchIf_next {taken : Bool} {g : Target} {s t : State} (h : branchIf taken g s = .next t) :
    (s.mem.inBounds (resolveTarget g s) = false ∧ t = s.halt (.outOfBounds (resolveTarget g s).toNat))
      ∨ (s.mem.inBounds (resolveTarget g s) = true ∧ t = if taken then s.withPc (resolveTarget g s) else s) := by
  rcases withTarget_next h with h | ⟨h1, h2⟩
  · exact .inl h
  · exact .inr ⟨h1, (Outcome.next.inj h2).symm⟩

end Sys2Proof.Machine
end

