-- ==== Sys2Proof/Laws/Exec.lean ====
section
/-! SUPPORT. Everything that the execution of an instruction can answer, over all instructions at once,
and what a step can answer. -/

namespace Sys2Proof.Machine

open Host (Outcome)

/-- The instructions that append to the output stream (`44_output.md` R120). -/
def Emits (i : Instr) : Prop :=
  (∃ o, i = .wud o ∨ i = .wsd o ∨ i = .wch o ∨ i = .wtx o) ∨ i = .wnl ∨ i = .wtb ∨ i = .wsp

/-- The ways an instruction can leave the state it starts in. A register or flag named by a constructor has some new
value, which the statement of the instruction gives; every field not named is as before. -/
inductive Effect (i : Instr) (s : State) : State → Prop where
  | halt (e : Cause)
      (illegal : ∀ b, e = .illegalOpcode b → ∃ op : ImplOp, i = op.instr ∧ b = implByte s.params.numbering op) :
      Effect i s (s.halt e)
  | regs (a x y : Byte) (z n c : Bool) : Effect i s { s with a := a, x := x, y := y, z := z, n := n, c := c }
  | emit (bs : List Byte) (emits : Emits i) : Effect i s (s.emit bs)
  | store (ea : Addr) (v : Byte) (z n c : Bool) (inBounds : s.mem.inBounds ea = true) :
      Effect i s { s.store ea v with z := z, n := n, c := c }
  | pushed (v : Byte) (room : s.sp < 256) : Effect i s { s with stack := s.stack.set s.sp v, sp := s.sp + 1 }
  | pulled (a x y : Byte) (z n : Bool) (live : s.sp ≠ 0) :
      Effect i s { s with a := a, x := x, y := y, z := z, n := n, sp := s.sp - 1 }
  | jump (p : Addr) (inBounds : s.mem.inBounds p = true) (branch : i.form.opClass = .branch) : Effect i s (s.withPc p)
  | call (p : Addr) (stack : Vector Byte 256) (inBounds : s.mem.inBounds p = true) (room : s.sp ≤ 254)
      (branch : i.form.opClass = .branch) : Effect i s { s with pc := p, sp := s.sp + 2, stack := stack }
  | ret (p : Addr) (inBounds : s.mem.inBounds p = true) (live : 2 ≤ s.sp) (rts : i = .rts) :
      Effect i s { s with pc := p, sp := s.sp - 2 }
  | retShort (live : s.sp = 1) (rts : i = .rts) : Effect i s (State.halt .stackUnderflow { s with sp := 0 })
  | retOut (a : Nat) (live : 2 ≤ s.sp) (rts : i = .rts) : Effect i s (State.halt (.outOfBounds a) { s with sp := s.sp - 2 })

theorem Effect.haltOut (i : Instr) (s : State) (a : Nat) : Effect i s (s.halt (.outOfBounds a)) :=
  .halt _ fun _ h => by cases h

/-- Nothing changed. -/
theorem Effect.same (i : Instr) (s : State) : Effect i s s := Effect.regs s.a s.x s.y s.z s.n s.c

/-- A reading operation that changes registers and flags only. -/
theorem Effect.of_reading {i : Instr} {o : Operand} {s t : State} {f : Byte → State} (h : reading o s f = .next t)
    (hf : ∀ v, Effect i s (f v)) : Effect i s t := by
  rcases reading_next h with ⟨a, _, rfl⟩ | ⟨ea, _, _, rfl⟩
  · exact .haltOut i s a
  · exact hf _

theorem Effect.of_storing {i : Instr} {o : Operand} {s t : State} {v : Byte} (h : storing o s v = .next t) :
    Effect i s t := by
  rcases storing_next h with ⟨a, _, rfl⟩ | ⟨ea, _, hb, rfl⟩
  · exact .haltOut i s a
  · exact .store ea v s.z s.n s.c hb

theorem Effect.of_modifying {i : Instr} {o : Operand} {s t : State} {f : Byte → Byte} {k : Byte → State → State}
    (h : modifying o s f k = .next t) (hk : ∀ v u, ∃ z n c, k v u = { u with z := z, n := n, c := c }) : Effect i s t := by
  rcases modifying_next h with ⟨a, _, rfl⟩ | ⟨ea, _, hb, rfl⟩
  · exact .haltOut i s a
  · obtain ⟨z, n, c, e⟩ := hk (s.mem.read ea) (s.store ea (f (s.mem.read ea)))
    rw [e]
    exact .store ea _ z n c hb

theorem Effect.of_branchIf {i : Instr} {taken : Bool} {g : Target} {s t : State} (h : branchIf taken g s = .next t)
    (hi : i.form.opClass = .branch) : Effect i s t := by
  rcases branchIf_next h with ⟨_, rfl⟩ | ⟨hb, rfl⟩
  · exact .haltOut i s _
  · cases taken
    · exact .same i s
    · exact .jump _ hb hi

theorem Effect.of_push {i : Instr} {s t : State} {v : Byte} (h : finish (push v s) = .next t) : Effect i s t := by
  cases hp : push v s with
  | ok u =>
    obtain ⟨hr, rfl⟩ := (push_ok_iff v s u).mp hp
    rw [hp] at h
    cases h
    exact .pushed v hr
  | error u =>
    obtain ⟨_, rfl⟩ := (push_error_iff v s u).mp hp
    rw [hp] at h
    cases h
    exact .halt _ fun _ e => by cases e

theorem Effect.of_pull {i : Instr} {s t : State} {write : Byte → State → State} (h : pull s write = .next t)
    (hw : ∀ v u, ∃ a x y, write v u = { u with a := a, x := x, y := y }) : Effect i s t := by
  unfold pull at h
  cases hp : pop s with
  | error u =>
    obtain ⟨_, rfl⟩ := (pop_error_iff s u).mp hp
    rw [hp] at h
    cases h
    exact .halt _ fun _ e => by cases e
  | ok r =>
    obtain ⟨v, u⟩ := r
    obtain ⟨hl, _, rfl⟩ := (pop_ok_iff s u v).mp hp
    simp only [hp, Outcome.next.injEq] at h
    subst h
    obtain ⟨a, x, y, e⟩ := hw v { s with sp := s.sp - 1 }
    rw [e]
    unfold State.pulledZN
    split
    · exact .pulled a x y _ _ hl
    · exact .pulled a x y s.z s.n hl

theorem Effect.of_illegal {op : ImplOp} {s t : State} (h : illegalSlot op s = .next t) : Effect op.instr s t := by
  cases h
  exact .halt _ fun b e => ⟨op, rfl, by cases e; rfl⟩

theorem Effect.of_rts {s t : State} (h : execRts s = .next t) : Effect .rts s t := by
  unfold execRts at h
  cases hp : pop s with
  | error u =>
    obtain ⟨_, rfl⟩ := (pop_error_iff s u).mp hp
    rw [hp] at h
    cases h
    exact .halt _ fun _ e => by cases e
  | ok r =>
    obtain ⟨hi, s1⟩ := r
    obtain ⟨hl, _, rfl⟩ := (pop_ok_iff s s1 hi).mp hp
    simp only [hp] at h
    cases hq : pop { s with sp := s.sp - 1 } with
    | error u =>
      obtain ⟨h0, rfl⟩ := (pop_error_iff _ u).mp hq
      simp only [hq, Outcome.next.injEq] at h
      subst h
      have h1 : s.sp = 1 := by simp only at h0; omega
      simp only [h1]
      exact .retShort h1 rfl
    | ok r =>
      obtain ⟨lo, s2⟩ := r
      obtain ⟨h0, _, rfl⟩ := (pop_ok_iff _ s2 lo).mp hq
      simp only [hq] at h
      have h2 : 2 ≤ s.sp := by simp only at h0; omega
      split at h
      · rename_i hb
        cases h
        exact .ret _ hb h2 rfl
      · cases h
        exact .retOut _ h2 rfl

theorem Effect.of_bsr {g : Target} {s t : State} (h : execBsr g s = .next t) : Effect (.bsr g) s t := by
  rcases withTarget_next h with ⟨_, rfl⟩ | ⟨hb, h⟩
  · exact .haltOut _ s _
  · split at h
    · cases h
      exact .halt _ fun _ e => by cases e
    · rename_i hr
      unfold push at h
      simp only [show s.sp < 256 by omega, dite_true, show s.sp + 1 < 256 by omega, Outcome.next.injEq] at h
      subst h
      exact .call _ _ hb (by omega) rfl

theorem Effect.of_wtx {o : Operand} {s t : State} (h : execWtx o s = .next t) : Effect (.wtx o) s t := by
  rcases withOperand_next h with ⟨a, _, rfl⟩ | ⟨ea, _, _, h⟩
  · exact .haltOut _ s a
  · split at h
    · cases h
      exact .emit _ (.inl ⟨o, .inr (.inr (.inr rfl))⟩)
    · cases h
      exact .haltOut _ s _

/-- What `exec` can answer, for every instruction. -/
theorem exec_next {i : Instr} {s t : State} (h : exec i s = .next t) : Effect i s t := by
  cases i with
  | lda o => unfold exec execLda at h; exact .of_reading h fun v => .regs v s.x s.y _ _ s.c
  | ldx o => unfold exec execLdx at h; exact .of_reading h fun v => .regs s.a v s.y _ _ s.c
  | ldy o => unfold exec execLdy at h; exact .of_reading h fun v => .regs s.a s.x v _ _ s.c
  | sta o => unfold exec execSta at h; exact .of_storing h
  | stx o => unfold exec execStx at h; exact .of_storing h
  | sty o => unfold exec execSty at h; exact .of_storing h
  | and o => unfold exec execAnd at h; exact .of_reading h fun v => .regs _ s.x s.y _ _ s.c
  | ora o => unfold exec execOra at h; exact .of_reading h fun v => .regs _ s.x s.y _ _ s.c
  | eor o => unfold exec execEor at h; exact .of_reading h fun v => .regs _ s.x s.y _ _ s.c
  | lsr o => unfold exec execLsr shiftMemory at h; exact .of_modifying h fun _ _ => ⟨_, _, _, rfl⟩
  | asl o => unfold exec execAsl shiftMemory at h; exact .of_modifying h fun _ _ => ⟨_, _, _, rfl⟩
  | ror o => unfold exec execRor shiftMemory at h; exact .of_modifying h fun _ _ => ⟨_, _, _, rfl⟩
  | rol o => unfold exec execRol shiftMemory at h; exact .of_modifying h fun _ _ => ⟨_, _, _, rfl⟩
  | adc o => unfold exec execAdc at h; exact .of_reading h fun v => .regs _ s.x s.y _ _ _
  | sbc o => unfold exec execSbc at h; exact .of_reading h fun v => .regs _ s.x s.y _ _ _
  | inc o => unfold exec execInc at h; exact .of_modifying h fun _ _ => ⟨_, _, _, rfl⟩
  | dec o => unfold exec execDec at h; exact .of_modifying h fun _ _ => ⟨_, _, _, rfl⟩
  | cmp o => unfold exec execCmp at h; exact .of_reading h fun v => .regs s.a s.x s.y _ _ _
  | cpx o => unfold exec execCpx at h; exact .of_reading h fun v => .regs s.a s.x s.y _ _ _
  | cpy o => unfold exec execCpy at h; exact .of_reading h fun v => .regs s.a s.x s.y _ _ _
  | wud o => unfold exec execWud at h; exact .of_reading h fun v => .emit _ (.inl ⟨o, .inl rfl⟩)
  | wsd o => unfold exec execWsd at h; exact .of_reading h fun v => .emit _ (.inl ⟨o, .inr (.inl rfl)⟩)
  | wch o => unfold exec execWch at h; exact .of_reading h fun v => .emit _ (.inl ⟨o, .inr (.inr (.inl rfl))⟩)
  | wtx o => exact .of_wtx h
  | hlt => cases h; exact .halt _ fun _ e => by cases e
  | rts => exact .of_rts h
  | lsa => cases h; exact .regs _ s.x s.y _ _ _
  | asa => cases h; exact .regs _ s.x s.y _ _ _
  | rra => cases h; exact .regs _ s.x s.y _ _ _
  | rla => cases h; exact .regs _ s.x s.y _ _ _
  | ina => cases h; exact .regs _ s.x s.y _ _ s.c
  | dea => cases h; exact .regs _ s.x s.y _ _ s.c
  | inx => cases h; exact .regs s.a _ s.y _ _ s.c
  | dex => cases h; exact .regs s.a _ s.y _ _ s.c
  | iny => cases h; exact .regs s.a s.x _ _ _ s.c
  | dey => cases h; exact .regs s.a s.x _ _ _ s.c
  | sez => cases h; exact .regs s.a s.x s.y _ s.n s.c
  | clz => cases h; exact .regs s.a s.x s.y _ s.n s.c
  | sen => cases h; exact .regs s.a s.x s.y s.z _ s.c
  | cln => cases h; exact .regs s.a s.x s.y s.z _ s.c
  | sec => cases h; exact .regs s.a s.x s.y s.z s.n _
  | clc => cases h; exact .regs s.a s.x s.y s.z s.n _
  | tax => cases h; exact .regs s.a _ s.y _ _ s.c
  | txa => cases h; exact .regs _ s.x s.y _ _ s.c
  | tay => cases h; exact .regs s.a s.x _ _ _ s.c
  | tya => cases h; exact .regs _ s.x s.y _ _ s.c
  | txy => cases h; exact .regs s.a s.x _ _ _ s.c
  | tyx => cases h; exact .regs s.a _ s.y _ _ s.c
  | pha => unfold exec execPha at h; exact .of_push h
  | phx => unfold exec execPhx at h; exact .of_push h
  | phy => unfold exec execPhy at h; exact .of_push h
  | pla => unfold exec execPla at h; exact .of_pull h fun v u => ⟨v, u.x, u.y, rfl⟩
  | plx => unfold exec execPlx at h; exact .of_pull h fun v u => ⟨u.a, v, u.y, rfl⟩
  | ply => unfold exec execPly at h; exact .of_pull h fun v u => ⟨u.a, u.x, v, rfl⟩
  | wnl => cases h; exact .emit _ (.inr (.inl rfl))
  | wtb => cases h; exact .emit _ (.inr (.inr (.inl rfl)))
  | wsp => cases h; exact .emit _ (.inr (.inr (.inr rfl)))
  | rud => exact .of_illegal (op := .rud) h
  | rsd => exact .of_illegal (op := .rsd) h
  | rch => exact .of_illegal (op := .rch) h
  | rtx => exact .of_illegal (op := .rtx) h
  | illegalE5 => exact .of_illegal (op := .illegalE5) h
  | illegalE6 => exact .of_illegal (op := .illegalE6) h
  | illegalE7 => exact .of_illegal (op := .illegalE7) h
  | illegalE8 => exact .of_illegal (op := .illegalE8) h
  | illegalE9 => exact .of_illegal (op := .illegalE9) h
  | illegalEA => exact .of_illegal (op := .illegalEA) h
  | illegalEB => exact .of_illegal (op := .illegalEB) h
  | illegalEC => exact .of_illegal (op := .illegalEC) h
  | illegalED => exact .of_illegal (op := .illegalED) h
  | illegalEE => exact .of_illegal (op := .illegalEE) h
  | illegalEF => exact .of_illegal (op := .illegalEF) h
  | bsr g => exact .of_bsr h
  | bra g => unfold exec execBra at h; exact .of_branchIf h rfl
  | bne g => unfold exec execBne at h; exact .of_branchIf h rfl
  | beq g => unfold exec execBeq at h; exact .of_branchIf h rfl
  | bpl g => unfold exec execBpl at h; exact .of_branchIf h rfl
  | bmi g => unfold exec execBmi at h; exact .of_branchIf h rfl
  | bcc g => unfold exec execBcc at h; exact .of_branchIf h rfl
  | bcs g => unfold exec execBcs at h; exact .of_branchIf h rfl

/-- What `step` can answer: only a running machine steps, and the step either halts while it fetches or executes the
instruction it fetched. -/
theorem step_next {s t : State} (h : step s = .next t) :
    s.status = .running ∧ (fetchInstr s = .error t ∨ ∃ i s1, fetchInstr s = .ok (i, s1) ∧ exec i s1 = .next t) := by
  unfold step at h
  split at h
  · cases h
  · rename_i hr
    refine ⟨hr, ?_⟩
    split at h
    · rename_i e
      cases h
      exact .inl e
    · rename_i i s1 e
      exact .inr ⟨i, s1, e, h⟩

end Sys2Proof.Machine
end

