-- ==== Sys2Proof/Laws/Flags.lean ====
section
/-! SUPPORT. The arithmetic of the flag computations as facts about numbers. -/

namespace Sys2Proof.Machine

theorem addCarry_fst_toNat (a m : Byte) (k : Bool) :
    (addCarry a m k).1.toNat = (a.toNat + m.toNat + k.toNat) % 256 := by
  simp [addCarry]

theorem addCarry_snd (a m : Byte) (k : Bool) :
    (addCarry a m k).2 = true ↔ 256 ≤ a.toNat + m.toNat + k.toNat := by
  simp [addCarry]; omega

theorem subBorrow_snd (a m : Byte) (k : Bool) :
    (subBorrow a m k).2 = true ↔ m.toNat + (1 - k.toNat) ≤ a.toNat := by
  cases k <;> simp [subBorrow] <;> omega

/-- What a compare leaves, field by field. -/
theorem compare_eq (reg m : Byte) (s : State) :
    compare reg m s
      = { s with z := decide (reg - m = 0), n := (reg - m).msb, c := decide ((reg - m).toNat < reg.toNat) } := rfl

end Sys2Proof.Machine
end

