-- ==== Sys2Proof/Laws/Launch.lean ====
section
/-! SUPPORT. What a launch can answer. -/

namespace Sys2Proof.Machine

theorem Launch.legal_iff (l : Launch) : l.legal = true ↔ l.mem.wf = true ∧ l.params.numbering.wf = true := by
  simp [Launch.legal]

/-- Creation succeeds exactly for legal arguments with `pc0` in bounds, in one state (`51_interfaces.md` R201). -/
theorem Launch.create_eq_some_iff (l : Launch) (s : State) :
    l.create = some s ↔ l.legal = true ∧ l.mem.inBounds l.pc0 = true ∧
      s = { a := l.a0, x := l.x0, y := l.y0, z := l.z0, n := l.n0, c := l.c0, pc := l.pc0, sp := 0, stack := l.stack0,
            mem := l.mem, status := .running, out := [], translator := none, params := l.params } := by
  unfold Launch.create
  by_cases h : (l.legal && l.mem.inBounds l.pc0) = true
  · rw [if_pos h]
    simp only [Bool.and_eq_true] at h
    simp [h, eq_comm]
  · rw [if_neg h]
    simp only [Bool.and_eq_true] at h
    exact iff_of_false (by simp) fun h' => h ⟨h'.1, h'.2.1⟩

theorem Launch.create_eq_none_iff (l : Launch) :
    l.create = none ↔ l.legal = false ∨ l.mem.inBounds l.pc0 = false := by
  unfold Launch.create
  split <;> simp_all
  by_cases h : l.legal = true <;> simp_all

/-- Attachment succeeds exactly when no translator is attached (`50_translator.md` R190, R191). -/
theorem State.attach_eq_some_iff (table : Vector Byte 256) (s t : State) :
    s.attach table = some t ↔ s.translator = none ∧
      t = { s with translator := some { map := table, input := s.mem, output := s.mem } } := by
  unfold State.attach Memory.clone
  cases h : s.translator <;> simp [eq_comm]

/-- A launch is a creation, and an attachment when a table is given (`70_reset_and_hazards.md` R232). -/
theorem Launch.start_eq_some_iff (l : Launch) (t : State) :
    l.start = some t ↔ ∃ s, l.create = some s ∧
      match l.map0 with
      | none => t = s
      | some table => t = { s with translator := some { map := table, input := s.mem, output := s.mem } } := by
  unfold Launch.start
  cases hc : l.create with
  | none => simp
  | some s =>
    have hs : s.translator = none := by
      obtain ⟨_, _, rfl⟩ := (l.create_eq_some_iff s).mp hc
      rfl
    cases hm : l.map0 with
    | none => simp [eq_comm]
    | some table => simp [State.attach_eq_some_iff, hs]

end Sys2Proof.Machine
end

