-- ==== Sys2Proof/Laws/PerInstr.lean ====
section
/-! SUPPORT. A statement about every instruction as syntax, one lemma per constructor. -/

namespace Sys2Proof.Laws.ShapeLength

/-- The number of operand bytes of an operand form (`30_encoding.md` R54, R58). -/
def operandCount : Option Candidate → Nat
  | none => 0
  | some .absolute => 2
  | some .absoluteX => 2
  | some .absoluteY => 2
  | some _ => 1

/-- Under every numbering, an instruction is encoded in one opcode byte and the operand bytes its form asks for, and its
class admits the form (`30_encoding.md` R50, R64). -/
def Statement (i : Instr) : Prop :=
  i.form.wf = true ∧ ∀ m : Numbering, (encodeWith m i).length = 1 + operandCount i.form.candidate

theorem lda (o : Operand) : Statement (.lda o) := by cases o <;> exact ⟨rfl, fun _ => rfl⟩

theorem sta (o : Operand) : Statement (.sta o) := by cases o <;> exact ⟨rfl, fun _ => rfl⟩

theorem ldx (o : Operand) : Statement (.ldx o) := by cases o <;> exact ⟨rfl, fun _ => rfl⟩

theorem stx (o : Operand) : Statement (.stx o) := by cases o <;> exact ⟨rfl, fun _ => rfl⟩

theorem ldy (o : Operand) : Statement (.ldy o) := by cases o <;> exact ⟨rfl, fun _ => rfl⟩

theorem sty (o : Operand) : Statement (.sty o) := by cases o <;> exact ⟨rfl, fun _ => rfl⟩

theorem and (o : Operand) : Statement (.and o) := by cases o <;> exact ⟨rfl, fun _ => rfl⟩

theorem ora (o : Operand) : Statement (.ora o) := by cases o <;> exact ⟨rfl, fun _ => rfl⟩

theorem eor (o : Operand) : Statement (.eor o) := by cases o <;> exact ⟨rfl, fun _ => rfl⟩

theorem lsr (o : Operand) : Statement (.lsr o) := by cases o <;> exact ⟨rfl, fun _ => rfl⟩

theorem asl (o : Operand) : Statement (.asl o) := by cases o <;> exact ⟨rfl, fun _ => rfl⟩

theorem ror (o : Operand) : Statement (.ror o) := by cases o <;> exact ⟨rfl, fun _ => rfl⟩

theorem rol (o : Operand) : Statement (.rol o) := by cases o <;> exact ⟨rfl, fun _ => rfl⟩

theorem adc (o : Operand) : Statement (.adc o) := by cases o <;> exact ⟨rfl, fun _ => rfl⟩

theorem sbc (o : Operand) : Statement (.sbc o) := by cases o <;> exact ⟨rfl, fun _ => rfl⟩

theorem inc (o : Operand) : Statement (.inc o) := by cases o <;> exact ⟨rfl, fun _ => rfl⟩

theorem dec (o : Operand) : Statement (.dec o) := by cases o <;> exact ⟨rfl, fun _ => rfl⟩

theorem cmp (o : Operand) : Statement (.cmp o) := by cases o <;> exact ⟨rfl, fun _ => rfl⟩

theorem cpx (o : Operand) : Statement (.cpx o) := by cases o <;> exact ⟨rfl, fun _ => rfl⟩

theorem cpy (o : Operand) : Statement (.cpy o) := by cases o <;> exact ⟨rfl, fun _ => rfl⟩

theorem wud (o : Operand) : Statement (.wud o) := by cases o <;> exact ⟨rfl, fun _ => rfl⟩

theorem wsd (o : Operand) : Statement (.wsd o) := by cases o <;> exact ⟨rfl, fun _ => rfl⟩

theorem wch (o : Operand) : Statement (.wch o) := by cases o <;> exact ⟨rfl, fun _ => rfl⟩

theorem wtx (o : Operand) : Statement (.wtx o) := by cases o <;> exact ⟨rfl, fun _ => rfl⟩

theorem hlt : Statement .hlt := ⟨rfl, fun _ => rfl⟩

theorem rts : Statement .rts := ⟨rfl, fun _ => rfl⟩

theorem lsa : Statement .lsa := ⟨rfl, fun _ => rfl⟩

theorem asa : Statement .asa := ⟨rfl, fun _ => rfl⟩

theorem rra : Statement .rra := ⟨rfl, fun _ => rfl⟩

theorem rla : Statement .rla := ⟨rfl, fun _ => rfl⟩

theorem ina : Statement .ina := ⟨rfl, fun _ => rfl⟩

theorem dea : Statement .dea := ⟨rfl, fun _ => rfl⟩

theorem inx : Statement .inx := ⟨rfl, fun _ => rfl⟩

theorem dex : Statement .dex := ⟨rfl, fun _ => rfl⟩

theorem iny : Statement .iny := ⟨rfl, fun _ => rfl⟩

theorem dey : Statement .dey := ⟨rfl, fun _ => rfl⟩

theorem sez : Statement .sez := ⟨rfl, fun _ => rfl⟩

theorem clz : Statement .clz := ⟨rfl, fun _ => rfl⟩

theorem sen : Statement .sen := ⟨rfl, fun _ => rfl⟩

theorem cln : Statement .cln := ⟨rfl, fun _ => rfl⟩

theorem sec : Statement .sec := ⟨rfl, fun _ => rfl⟩

theorem clc : Statement .clc := ⟨rfl, fun _ => rfl⟩

theorem tax : Statement .tax := ⟨rfl, fun _ => rfl⟩

theorem txa : Statement .txa := ⟨rfl, fun _ => rfl⟩

theorem tay : Statement .tay := ⟨rfl, fun _ => rfl⟩

theorem tya : Statement .tya := ⟨rfl, fun _ => rfl⟩

theorem txy : Statement .txy := ⟨rfl, fun _ => rfl⟩

theorem tyx : Statement .tyx := ⟨rfl, fun _ => rfl⟩

theorem pha : Statement .pha := ⟨rfl, fun _ => rfl⟩

theorem phx : Statement .phx := ⟨rfl, fun _ => rfl⟩

theorem phy : Statement .phy := ⟨rfl, fun _ => rfl⟩

theorem pla : Statement .pla := ⟨rfl, fun _ => rfl⟩

theorem plx : Statement .plx := ⟨rfl, fun _ => rfl⟩

theorem ply : Statement .ply := ⟨rfl, fun _ => rfl⟩

theorem wnl : Statement .wnl := ⟨rfl, fun _ => rfl⟩

theorem wtb : Statement .wtb := ⟨rfl, fun _ => rfl⟩

theorem wsp : Statement .wsp := ⟨rfl, fun _ => rfl⟩

theorem rud : Statement .rud := ⟨rfl, fun _ => rfl⟩

theorem rsd : Statement .rsd := ⟨rfl, fun _ => rfl⟩

theorem rch : Statement .rch := ⟨rfl, fun _ => rfl⟩

theorem rtx : Statement .rtx := ⟨rfl, fun _ => rfl⟩

theorem illegalE5 : Statement .illegalE5 := ⟨rfl, fun _ => rfl⟩

theorem illegalE6 : Statement .illegalE6 := ⟨rfl, fun _ => rfl⟩

theorem illegalE7 : Statement .illegalE7 := ⟨rfl, fun _ => rfl⟩

theorem illegalE8 : Statement .illegalE8 := ⟨rfl, fun _ => rfl⟩

theorem illegalE9 : Statement .illegalE9 := ⟨rfl, fun _ => rfl⟩

theorem illegalEA : Statement .illegalEA := ⟨rfl, fun _ => rfl⟩

theorem illegalEB : Statement .illegalEB := ⟨rfl, fun _ => rfl⟩

theorem illegalEC : Statement .illegalEC := ⟨rfl, fun _ => rfl⟩

theorem illegalED : Statement .illegalED := ⟨rfl, fun _ => rfl⟩

theorem illegalEE : Statement .illegalEE := ⟨rfl, fun _ => rfl⟩

theorem illegalEF : Statement .illegalEF := ⟨rfl, fun _ => rfl⟩

theorem bsr (t : Target) : Statement (.bsr t) := by cases t <;> exact ⟨rfl, fun _ => rfl⟩

theorem bra (t : Target) : Statement (.bra t) := by cases t <;> exact ⟨rfl, fun _ => rfl⟩

theorem bne (t : Target) : Statement (.bne t) := by cases t <;> exact ⟨rfl, fun _ => rfl⟩

theorem beq (t : Target) : Statement (.beq t) := by cases t <;> exact ⟨rfl, fun _ => rfl⟩

theorem bpl (t : Target) : Statement (.bpl t) := by cases t <;> exact ⟨rfl, fun _ => rfl⟩

theorem bmi (t : Target) : Statement (.bmi t) := by cases t <;> exact ⟨rfl, fun _ => rfl⟩

theorem bcc (t : Target) : Statement (.bcc t) := by cases t <;> exact ⟨rfl, fun _ => rfl⟩

theorem bcs (t : Target) : Statement (.bcs t) := by cases t <;> exact ⟨rfl, fun _ => rfl⟩

end Sys2Proof.Laws.ShapeLength
end

