-- ==== Sys2Proof/Machine/Trace.lean ====
section
/-! DEFINITION. The tracer's record (`51_interfaces.md` R205, `10_state.md` R25): an observation of one step, computed from
the state before it. It is no state and nothing reads it back. What N17 leaves open is opaque (log entry 19). -/

namespace Sys2Proof.Machine

/-- The data the core exposes for a step (`51_interfaces.md` R205). -/
structure TraceRecord where
  /-- the opcode byte and the operand bytes -/
  bytes : List Byte
  mnemonic : Option (List Char)
  /-- the effective address or the branch target -/
  resolved : Option Addr
  /-- the byte the operation produced -/
  result : Option Byte
  deriving DecidableEq, Repr

/-- The operand bytes of a form. -/
def operandBytes : Form → List Byte
  | .mm _ o => o.bytes
  | .impl _ => []
  | .br _ t => t.bytes

/-- The effective address of a multimode instruction or the target of a branch, in the state before it executes. -/
def resolvedOf (f : Form) (s1 : State) : Option Addr :=
  match f with
  | .mm _ o => (resolve o s1).toOption
  | .impl _ => none
  | .br _ t => some (resolveTarget t s1)

/-- The difference a compare forms. -/
def compareResult (reg : Byte) (o : Operand) (s1 : State) : Option Byte :=
  if Config.traceCompareIsArith then (resolve o s1).toOption.map fun ea => reg - s1.mem.read ea else none

/-- The resulting byte, from the states before (`s1`) and after (`s2`) the execution (`51_interfaces.md` R205). -/
def resultOf (f : Form) (s1 s2 : State) : Option Byte :=
  match f with
  | .mm .lsr o => (resolve o s1).toOption.map s2.mem.read
  | .mm .asl o => (resolve o s1).toOption.map s2.mem.read
  | .mm .ror o => (resolve o s1).toOption.map s2.mem.read
  | .mm .rol o => (resolve o s1).toOption.map s2.mem.read
  | .mm .inc o => (resolve o s1).toOption.map s2.mem.read
  | .mm .dec o => (resolve o s1).toOption.map s2.mem.read
  | .mm .adc _ => some s2.a
  | .mm .sbc _ => some s2.a
  | .mm .and _ => if Config.traceLogicIsArith then some s2.a else none
  | .mm .ora _ => if Config.traceLogicIsArith then some s2.a else none
  | .mm .eor _ => if Config.traceLogicIsArith then some s2.a else none
  | .mm .cmp o => compareResult s1.a o s1
  | .mm .cpx o => compareResult s1.x o s1
  | .mm .cpy o => compareResult s1.y o s1
  | .mm _ _ => none
  | .impl .lsa => some s2.a
  | .impl .asa => some s2.a
  | .impl .rra => some s2.a
  | .impl .rla => some s2.a
  | .impl .ina => some s2.a
  | .impl .dea => some s2.a
  | .impl .inx => some s2.x
  | .impl .dex => some s2.x
  | .impl .iny => some s2.y
  | .impl .dey => some s2.y
  | .impl _ => none
  | .br _ _ => none

/-- The record of the step taken from a state, when a tracer is supplied (`10_state.md` R25, `00_scope.md` R4) and the step
completes; what a halting step's record holds is open and not modelled (`93_implementation_defined.md` U15; log entry
19). -/
def traceOf (s : State) : Option TraceRecord :=
  match s.params.tracer, s.status, fetchInstr s with
  | true, .running, .ok (i, s1) =>
    match exec i s1 with
    | .next s2 =>
      if s2.status = .running then
        let raw := s.mem.read s.pc
        some
          { bytes := (if Config.traceShowsTranslated then s.translate raw else raw) :: operandBytes i.form
            mnemonic := formName i.form
            resolved := resolvedOf i.form s1
            result := resultOf i.form s1 s2 }
      else none
    | _ => none
  | _, _, _ => none

end Sys2Proof.Machine
end

