-- ==== Sys2Proof/Tests/Slice0.lean ====
section
/-! SUPPORT. The model's own tests: terms that well-formedness refuses, words written out from `30_encoding.md`, one-step
vectors of `95_test_vectors.md` (the name of a test ends in the vector's id), and a witness for the hypotheses of every
obligation that has any. -/

namespace Sys2Proof.Tests

open Sys2Proof.Machine Host

/-- The start state of the vectors: full shape, the bytes at the address where the first step fetches, all else 0. -/
def codeAt (pc : Addr) (bytes : List Byte) : State :=
  { State.reset with pc := pc, mem := State.reset.mem.storeBytes pc bytes }

/-- The same at address 0. -/
def code (bytes : List Byte) : State := codeAt 0 bytes

/-- The same in a bounded memory. -/
def bounded (size : Nat) (bytes : List Byte) : State :=
  { State.reset with mem := ({ size := size, cells := [] } : Memory).storeBytes 0 bytes }

/-- One byte of memory set before the run. -/
def poke (a : Addr) (v : Byte) (s : State) : State := { s with mem := s.mem.store a v }

/-- The stack filled from entry 0. -/
def stacked (bytes : List Byte) (s : State) : State :=
  { s with sp := bytes.length, stack := bytes.zipIdx.foldl (fun v p => v.setIfInBounds p.2 p.1) s.stack }

/-- A translator attached whose table is the identity but for the given pairs. -/
def translated (pairs : List (Byte × Byte)) (s : State) : State :=
  { s with translator := some { map := tableOfPairs pairs, input := s.mem, output := s.mem } }

/-- A trace buffer supplied. -/
def traced (s : State) : State := { s with params := { s.params with tracer := true } }

/-- The default map with RUD and INX exchanged: a legal `IMPL_MAP` in which 0xC8 is a reserved byte. -/
def swapped : Numbering :=
  { Numbering.default with impl := (Numbering.default.impl.set 8 .rud).set 33 .inx }

/-- One step answers a next state with the property. -/
def steps (s : State) (p : State → Bool) : Bool :=
  match step s with
  | .next t => p t
  | _ => false

/-- The three flags are as given. -/
def zncIs (z n c : Bool) (s : State) : Bool := s.z == z && s.n == n && s.c == c

/-- The byte list is exactly one instruction, and the instruction's bytes are the list. -/
def isWord (p : List Byte × Instr) : Bool :=
  (match decode p.1 with
    | .ok (i, []) => decide (i = p.2)
    | _ => false) && decide (encode p.2 = p.1)

/-! ## Well-formedness refuses -/

theorem test_defaultNumbering_wf : Numbering.default.wf = true := by decide

theorem test_mmOrder_repeated_refused :
    ({ Numbering.default with mm := Numbering.default.mm.set 1 .lda } : Numbering).mmWf = false := by decide

theorem test_implMap_repeated_refused :
    ({ Numbering.default with impl := Numbering.default.impl.set 1 .hlt } : Numbering).implWf = false := by decide

theorem test_brOrder_repeated_refused :
    ({ Numbering.default with br := Numbering.default.br.set 7 .bsr } : Numbering).brWf = false := by decide

theorem test_illFormed_numbering_refused :
    ({ Numbering.default with br := Numbering.default.br.set 7 .bsr } : Numbering).wf = false := by decide

theorem test_multimode_relative_refused : OpClass.multimode.admits (some .relative) = false := by decide

theorem test_multimode_without_operand_refused : OpClass.multimode.admits none = false := by decide

theorem test_implicit_with_operand_refused : OpClass.implicit.admits (some .immediate) = false := by decide

theorem test_branch_immediate_refused : OpClass.branch.admits (some .immediate) = false := by decide

theorem test_branch_without_target_refused : OpClass.branch.admits none = false := by decide

theorem test_memory_unsorted_refused : ({ size := 0, cells := [(5, 1), (4, 1)] } : Memory).wf = false := by decide

theorem test_memory_default_cell_refused : ({ size := 0, cells := [(5, 0)] } : Memory).wf = false := by decide

theorem test_memory_cell_beyond_size_refused : ({ size := 4, cells := [(4, 1)] } : Memory).wf = false := by decide

theorem test_memory_size_refused : ({ size := 65537, cells := [] } : Memory).wf = false := by decide

/-! ## Words written out from the encoding tables R53 to R55, R58 to R60 -/

/-- Each multimode operation once, the modes in turn: the byte is number * 8 + mode. -/
def multimodeWords : List (List Byte × Instr) :=
  [([0x00, 0x7F], .lda (.imm 0x7F)), ([0x09, 0x34, 0x12], .sta (.abs 0x1234)), ([0x12, 0x7F], .ldx (.zp 0x7F)), ([0x1B, 0x34, 0x12], .stx (.absX 0x1234)),
     ([0x24, 0x7F], .ldy (.zpX 0x7F)), ([0x2D, 0x34, 0x12], .sty (.absY 0x1234)), ([0x36, 0x7F], .and (.zpY 0x7F)), ([0x3F, 0x7F], .ora (.indY 0x7F))]
    ++ [([0x40, 0x7F], .eor (.imm 0x7F)), ([0x49, 0x34, 0x12], .lsr (.abs 0x1234)), ([0x52, 0x7F], .asl (.zp 0x7F)), ([0x5B, 0x34, 0x12], .ror (.absX 0x1234)),
     ([0x64, 0x7F], .rol (.zpX 0x7F)), ([0x6D, 0x34, 0x12], .adc (.absY 0x1234)), ([0x76, 0x7F], .sbc (.zpY 0x7F)), ([0x7F, 0x7F], .inc (.indY 0x7F))]
    ++ [([0x80, 0x7F], .dec (.imm 0x7F)), ([0x89, 0x34, 0x12], .cmp (.abs 0x1234)), ([0x92, 0x7F], .cpx (.zp 0x7F)), ([0x9B, 0x34, 0x12], .cpy (.absX 0x1234)),
     ([0xA4, 0x7F], .wud (.zpX 0x7F)), ([0xAD, 0x34, 0x12], .wsd (.absY 0x1234)), ([0xB6, 0x7F], .wch (.zpY 0x7F)), ([0xBF, 0x7F], .wtx (.indY 0x7F))]

theorem test_decode_multimode : multimodeWords.all isWord = true := by decide

/-- The first and the last operation in all eight modes. -/
def modeWords : List (List Byte × Instr) :=
  [([0x00, 0x7F], .lda (.imm 0x7F)), ([0x01, 0x34, 0x12], .lda (.abs 0x1234)), ([0x02, 0x7F], .lda (.zp 0x7F)), ([0x03, 0x34, 0x12], .lda (.absX 0x1234)),
     ([0x04, 0x7F], .lda (.zpX 0x7F)), ([0x05, 0x34, 0x12], .lda (.absY 0x1234)), ([0x06, 0x7F], .lda (.zpY 0x7F)), ([0x07, 0x7F], .lda (.indY 0x7F))]
    ++ [([0xB8, 0x7F], .wtx (.imm 0x7F)), ([0xB9, 0x34, 0x12], .wtx (.abs 0x1234)), ([0xBA, 0x7F], .wtx (.zp 0x7F)), ([0xBB, 0x34, 0x12], .wtx (.absX 0x1234)),
     ([0xBC, 0x7F], .wtx (.zpX 0x7F)), ([0xBD, 0x34, 0x12], .wtx (.absY 0x1234)), ([0xBE, 0x7F], .wtx (.zpY 0x7F)), ([0xBF, 0x7F], .wtx (.indY 0x7F))]

theorem test_decode_modes : modeWords.all isWord = true := by decide

/-- Each implicit byte from 0xC0 to 0xEF. -/
def implicitWords : List (List Byte × Instr) :=
  [([0xC0], .hlt), ([0xC1], .rts), ([0xC2], .lsa), ([0xC3], .asa),
     ([0xC4], .rra), ([0xC5], .rla), ([0xC6], .ina), ([0xC7], .dea),
     ([0xC8], .inx), ([0xC9], .dex), ([0xCA], .iny), ([0xCB], .dey)]
    ++ [([0xCC], .sez), ([0xCD], .clz), ([0xCE], .sen), ([0xCF], .cln),
     ([0xD0], .sec), ([0xD1], .clc), ([0xD2], .tax), ([0xD3], .txa),
     ([0xD4], .tay), ([0xD5], .tya), ([0xD6], .txy), ([0xD7], .tyx)]
    ++ [([0xD8], .pha), ([0xD9], .phx), ([0xDA], .phy), ([0xDB], .pla),
     ([0xDC], .plx), ([0xDD], .ply), ([0xDE], .wnl), ([0xDF], .wtb),
     ([0xE0], .wsp), ([0xE1], .rud), ([0xE2], .rsd), ([0xE3], .rch)]
    ++ [([0xE4], .rtx), ([0xE5], .illegalE5), ([0xE6], .illegalE6), ([0xE7], .illegalE7),
     ([0xE8], .illegalE8), ([0xE9], .illegalE9), ([0xEA], .illegalEA), ([0xEB], .illegalEB),
     ([0xEC], .illegalEC), ([0xED], .illegalED), ([0xEE], .illegalEE), ([0xEF], .illegalEF)]

theorem test_decode_implicit : implicitWords.all isWord = true := by decide

/-- Each branch type in both target forms. -/
def branchWords : List (List Byte × Instr) :=
  [([0xF0, 0x80], .bsr (.rel 0x80)), ([0xF1, 0x34, 0x12], .bsr (.abs 0x1234)), ([0xF2, 0x80], .bra (.rel 0x80)), ([0xF3, 0x34, 0x12], .bra (.abs 0x1234)),
     ([0xF4, 0x80], .bne (.rel 0x80)), ([0xF5, 0x34, 0x12], .bne (.abs 0x1234)), ([0xF6, 0x80], .beq (.rel 0x80)), ([0xF7, 0x34, 0x12], .beq (.abs 0x1234))]
    ++ [([0xF8, 0x80], .bpl (.rel 0x80)), ([0xF9, 0x34, 0x12], .bpl (.abs 0x1234)), ([0xFA, 0x80], .bmi (.rel 0x80)), ([0xFB, 0x34, 0x12], .bmi (.abs 0x1234)),
     ([0xFC, 0x80], .bcc (.rel 0x80)), ([0xFD, 0x34, 0x12], .bcc (.abs 0x1234)), ([0xFE, 0x80], .bcs (.rel 0x80)), ([0xFF, 0x34, 0x12], .bcs (.abs 0x1234))]

theorem test_decode_branch : branchWords.all isWord = true := by decide

theorem test_decode_leaves_the_rest : decode [0xC8, 0x00, 0x05] = .ok (.inx, [0x00, 0x05]) := rfl

theorem test_decode_empty_refused : decode [] = .error .noOpcode := rfl

theorem test_decode_cut_off_refused :
    decode [0x00] = .error .missingOperand ∧ decode [0x01, 0x00] = .error .missingOperand
      ∧ decode [0xF3, 0x00] = .error .missingOperand := ⟨rfl, rfl, rfl⟩

theorem test_decodeTableWord :
    decodeTableWord 8 0xC0 = some .hlt ∧ decodeTableWord 16 0x0500 = some (.lda (.imm 5))
      ∧ decodeTableWord 24 0x123409 = some (.sta (.abs 0x1234)) ∧ decodeTableWord 8 0x01 = some (.lda (.abs 0)) := by
  decide

/-! ## One step on the vectors of the spec -/

theorem test_lda_LS1 :
    steps { (code [0x00, 0x00]) with a := 0x12, c := true }
      (fun t => t.a == 0x00 && zncIs true false true t) = true := by decide

theorem test_lda_AM7p :
    steps { (poke 0x00FF 0x34 (poke 0x0100 0x12 (poke 0x1235 0x01 (code [0x07, 0xFF])))) with y := 0x01 }
      (fun t => t.a == 0x01 && t.pc == 0x0002) = true := by decide

theorem test_sta_LS8 :
    steps { (code [0x08, 0xEE]) with a := 0x05 }
      (fun t => t.mem.read 0x0001 == 0x05 && t.a == 0x05 && t.pc == 0x0002) = true := by decide

theorem test_sta_LS10 :
    steps { (bounded 16 [0x09, 0x10, 0x00]) with a := 0x05 }
      (fun t => t.pc == 0x0003 && t.status == .halted (.outOfBounds 16)) = true := by decide

theorem test_ldx_LS3 :
    steps { (code [0x10, 0x7F]) with z := true, n := true }
      (fun t => t.x == 0x7F && zncIs false false false t) = true := by decide

theorem test_stx_LS6 :
    steps { (code [0x19, 0x34, 0x12]) with x := 0x80 }
      (fun t => t.mem.read 0x1234 == 0x80 && zncIs false false false t && t.pc == 0x0003) = true := by decide

theorem test_ldy_LS4 :
    steps (code [0x20, 0xFF])
      (fun t => t.y == 0xFF && zncIs false true false t) = true := by decide

theorem test_sty_LS7 :
    steps { (code [0x2C, 0x10]) with x := 0x05, y := 0x09 }
      (fun t => t.mem.read 0x0015 == 0x09 && zncIs false false false t) = true := by decide

theorem test_absX_AM3w :
    steps { (poke 0x0010 0x42 (code [0x03, 0xF0, 0xFF])) with x := 0x20 }
      (fun t => t.a == 0x42 && t.pc == 0x0003) = true := by decide

theorem test_zpX_AM4 :
    steps { (poke 0x0010 0x99 (poke 0x0110 0x11 (code [0x04, 0xF0]))) with x := 0x20 }
      (fun t => t.a == 0x11 && zncIs false false false t) = true := by decide

theorem test_absY_AM5 :
    steps { (poke 0x10FF 0xFF (code [0x05, 0x00, 0x10])) with y := 0xFF }
      (fun t => t.a == 0xFF && zncIs false true false t) = true := by decide

theorem test_zpY_AM6 :
    steps { (poke 0x00FE 0x77 (poke 0x01FE 0x01 (code [0x06, 0xFF]))) with y := 0xFF }
      (fun t => t.a == 0x01) = true := by decide

theorem test_indY_AM7b :
    steps { (bounded 256 [0x07, 0xFF]) with a := 0x77 }
      (fun t => t.a == 0x77 && t.pc == 0x0002 && t.status == .halted (.outOfBounds 256)) = true := by decide

theorem test_and_LG2 :
    steps { (code [0x30, 0x81]) with a := 0xC3 }
      (fun t => t.a == 0x81 && zncIs false true false t) = true := by decide

theorem test_and_LG7 :
    steps { (poke 0x0050 0x66 (code [0x32, 0x50])) with a := 0x3C }
      (fun t => t.a == 0x24 && t.mem.read 0x0050 == 0x66) = true := by decide

theorem test_ora_LG3 :
    steps { (code [0x38, 0x80]) with a := 0x01, c := true }
      (fun t => t.a == 0x81 && zncIs false true true t) = true := by decide

theorem test_eor_LG6 :
    steps { (code [0x40, 0xFF]) with a := 0x0F, c := true }
      (fun t => t.a == 0xF0 && zncIs false true true t) = true := by decide

theorem test_lsr_SH2 :
    steps { (poke 0x0050 0x82 (code [0x4A, 0x50])) with c := true }
      (fun t => t.mem.read 0x0050 == 0x41 && zncIs false false false t) = true := by decide

theorem test_lsr_SH1 :
    steps { (poke 0x0050 0x01 (code [0x4A, 0x50])) with a := 0x99 }
      (fun t => t.mem.read 0x0050 == 0x00 && zncIs true false true t) = true := by decide

theorem test_asl_SH4 :
    steps { (poke 0x0050 0x41 (code [0x52, 0x50])) with c := true }
      (fun t => t.mem.read 0x0050 == 0x82 && zncIs false true false t) = true := by decide

theorem test_asl_SH9 :
    steps (code [0x50, 0x81])
      (fun t => t.mem.read 0x0001 == 0x02 && zncIs false false true t && t.pc == 0x0002) = true := by decide

theorem test_ror_SH6 :
    steps { (poke 0x0050 0x00 (code [0x5A, 0x50])) with c := true }
      (fun t => t.mem.read 0x0050 == 0x80 && zncIs false true false t) = true := by decide

theorem test_ror_SH5 :
    steps (poke 0x0050 0x01 (code [0x5A, 0x50]))
      (fun t => t.mem.read 0x0050 == 0x00 && zncIs true false true t) = true := by decide

theorem test_rol_SH7 :
    steps { (poke 0x0050 0x80 (code [0x62, 0x50])) with c := true }
      (fun t => t.mem.read 0x0050 == 0x01 && zncIs false false true t) = true := by decide

theorem test_rol_SH8 :
    steps (poke 0x0050 0x80 (code [0x62, 0x50]))
      (fun t => t.mem.read 0x0050 == 0x00 && zncIs true false true t) = true := by decide

theorem test_adc_AR1 :
    steps { (code [0x68, 0x01]) with a := 0xFF }
      (fun t => t.a == 0x00 && zncIs true false true t) = true := by decide

theorem test_adc_AR3 :
    steps { (code [0x68, 0xFF]) with a := 0xFF, c := true }
      (fun t => t.a == 0xFF && zncIs false true true t) = true := by decide

theorem test_sbc_AR8 :
    steps { (code [0x70, 0x03]) with a := 0x05 }
      (fun t => t.a == 0x01 && zncIs false false true t) = true := by decide

theorem test_sbc_AR11 :
    steps (code [0x70, 0xFF])
      (fun t => t.a == 0x00 && zncIs true false false t) = true := by decide

theorem test_inc_ID1 :
    steps { (poke 0x0050 0xFF (code [0x7A, 0x50])) with c := true }
      (fun t => t.mem.read 0x0050 == 0x00 && zncIs true false true t) = true := by decide

theorem test_dec_ID3 :
    steps { (poke 0x0050 0x00 (code [0x82, 0x50])) with c := true }
      (fun t => t.mem.read 0x0050 == 0xFF && zncIs false true true t) = true := by decide

theorem test_cmp_CP3 :
    steps { (code [0x88, 0x05]) with a := 0x03, c := true }
      (fun t => t.a == 0x03 && zncIs false true false t) = true := by decide

theorem test_cmp_CP4 :
    steps { (code [0x88, 0x00]) with a := 0x05, c := true }
      (fun t => t.a == 0x05 && zncIs false false false t) = true := by decide

theorem test_cpx_CP7 :
    steps { (code [0x90, 0x01]) with x := 0xFF }
      (fun t => t.x == 0xFF && zncIs false true true t) = true := by decide

theorem test_cpy_CP9 :
    steps { (code [0x98, 0x7F]) with y := 0x80 }
      (fun t => t.y == 0x80 && zncIs false false true t) = true := by decide

theorem test_cpy_CP11 :
    steps { (poke 0x0050 0x00 (code [0x9A, 0x50])) with y := 0x10, c := true }
      (fun t => zncIs false false false t) = true := by decide

theorem test_wud_IO3 :
    steps (code [0xA0, 0xFF])
      (fun t => t.out == [0x32, 0x35, 0x35]) = true := by decide

theorem test_wud_IO1 :
    steps { (code [0xA0, 0x2A]) with a := 0x11, z := true, c := true }
      (fun t => t.out == [0x34, 0x32] && zncIs true false true t) = true := by decide

theorem test_wsd_IO5 :
    steps (code [0xA8, 0x80])
      (fun t => t.out == [0x2D, 0x31, 0x32, 0x38]) = true := by decide

theorem test_wsd_IO6 :
    steps (code [0xA8, 0x7F])
      (fun t => t.out == [0x31, 0x32, 0x37]) = true := by decide

theorem test_wch_IO8 :
    steps (code [0xB0, 0x00])
      (fun t => t.out == [0x00]) = true := by decide

theorem test_wtx_IO9 :
    steps (poke 0x0020 0x48 (poke 0x0021 0x69 (poke 0x0023 0x58 (code [0xB9, 0x20, 0x00]))))
      (fun t => t.out == [0x48, 0x69] && t.pc == 0x0003) = true := by decide

theorem test_wtx_IO11 :
    steps (bounded 6 [0xB9, 0x04, 0x00, 0xC0, 0x41, 0x42])
      (fun t => t.out == [] && t.status == .halted (.outOfBounds 6) && t.pc == 0x0003) = true := by decide

theorem test_wnl_IO12 :
    steps { (code [0xDE]) with z := true, n := true, c := true }
      (fun t => t.out == [0x0A] && zncIs true true true t) = true := by decide

theorem test_wtb_IO13 :
    steps (code [0xDF])
      (fun t => t.out == [0x09]) = true := by decide

theorem test_wsp_IO14 :
    steps (code [0xE0])
      (fun t => t.out == [0x20]) = true := by decide

theorem test_hlt_HF1 :
    steps { (bounded 1 [0xC0]) with a := 0x12, x := 0x34, y := 0x56, z := true, c := true }
      (fun t => t.status == .halted .hlt && t.a == 0x12 && zncIs true false true t && t.pc == 0x0001) = true := by decide

theorem test_rts_BR22 :
    steps (stacked [0x05, 0x02] (code [0xC1]))
      (fun t => t.pc == 0x0205 && t.sp == 0) = true := by decide +kernel

theorem test_rts_BR23 :
    steps (stacked [0x05] (code [0xC1]))
      (fun t => t.sp == 0 && t.status == .halted .stackUnderflow) = true := by decide +kernel

theorem test_rts_BR25 :
    steps (stacked [0x04, 0x00] (bounded 4 [0xC1]))
      (fun t => t.pc == 0x0001 && t.sp == 0 && t.status == .halted (.outOfBounds 4)) = true := by decide +kernel

theorem test_lsa_SA1 :
    steps { (code [0xC2]) with a := 0x82 }
      (fun t => t.a == 0x41 && zncIs false false false t && t.pc == 0x0001) = true := by decide

theorem test_asa_SA4 :
    steps { (code [0xC3]) with a := 0x80 }
      (fun t => t.a == 0x00 && zncIs true false true t) = true := by decide

theorem test_rra_SA6 :
    steps { (code [0xC4]) with c := true }
      (fun t => t.a == 0x80 && zncIs false true false t) = true := by decide

theorem test_rla_SA7 :
    steps { (code [0xC5]) with a := 0x80, c := true }
      (fun t => t.a == 0x01 && zncIs false false true t) = true := by decide

theorem test_ina_ID5 :
    steps { (code [0xC6]) with a := 0xFF, c := true }
      (fun t => t.a == 0x00 && zncIs true false true t) = true := by decide

theorem test_dea_ID6 :
    steps (code [0xC7])
      (fun t => t.a == 0xFF && zncIs false true false t) = true := by decide

theorem test_inx_ID7 :
    steps { (code [0xC8]) with x := 0x7F }
      (fun t => t.x == 0x80 && zncIs false true false t) = true := by decide

theorem test_dex_ID8 :
    steps { (code [0xC9]) with x := 0x01, n := true }
      (fun t => t.x == 0x00 && zncIs true false false t) = true := by decide

theorem test_iny_ID9 :
    steps { (code [0xCA]) with y := 0xFF }
      (fun t => t.y == 0x00 && zncIs true false false t) = true := by decide

theorem test_dey_ID10 :
    steps { (code [0xCB]) with c := true }
      (fun t => t.y == 0xFF && zncIs false true true t) = true := by decide

theorem test_sez_FT1 :
    steps { (code [0xCC]) with n := true }
      (fun t => zncIs true true false t) = true := by decide

theorem test_clz_FT2 :
    steps { (code [0xCD]) with z := true, c := true }
      (fun t => zncIs false false true t) = true := by decide

theorem test_sen_FT3 :
    steps (code [0xCE])
      (fun t => zncIs false true false t) = true := by decide

theorem test_cln_FT4 :
    steps { (code [0xCF]) with z := true, n := true }
      (fun t => zncIs true false false t) = true := by decide

theorem test_sec_FT5 :
    steps (code [0xD0])
      (fun t => zncIs false false true t) = true := by decide

theorem test_clc_FT6 :
    steps { (code [0xD1]) with z := true, c := true }
      (fun t => zncIs true false false t) = true := by decide

theorem test_tax_FT7 :
    steps { (code [0xD2]) with a := 0x80, x := 0x01, c := true }
      (fun t => t.a == 0x80 && t.x == 0x80 && zncIs false true true t) = true := by decide

theorem test_txa_FT8 :
    steps { (code [0xD3]) with a := 0x55 }
      (fun t => t.a == 0x00 && zncIs true false false t) = true := by decide

theorem test_tay_FT9 :
    steps { (code [0xD4]) with a := 0x7F, y := 0xFF }
      (fun t => t.y == 0x7F && zncIs false false false t) = true := by decide

theorem test_tya_FT10 :
    steps { (code [0xD5]) with y := 0x90 }
      (fun t => t.a == 0x90 && zncIs false true false t) = true := by decide

theorem test_txy_FT11 :
    steps { (code [0xD6]) with y := 0x33, n := true }
      (fun t => t.y == 0x00 && zncIs true false false t) = true := by decide

theorem test_tyx_FT12 :
    steps { (code [0xD7]) with x := 0x01, y := 0xFE }
      (fun t => t.x == 0xFE && zncIs false true false t) = true := by decide

theorem test_pha_ST1 :
    steps { (code [0xD8]) with n := true }
      (fun t => t.sp == 1 && t.stack[0] == 0x00 && zncIs false true false t) = true := by decide

theorem test_pha_ST8 :
    steps { (code [0xD8]) with a := 0x42, sp := 256 }
      (fun t => t.sp == 256 && t.status == .halted .stackOverflow && t.pc == 0x0001) = true := by decide

theorem test_phx_ST2 :
    steps { (stacked [0x11] (code [0xD9])) with x := 0xAB }
      (fun t => t.sp == 2 && t.stack[1] == 0xAB) = true := by decide +kernel

theorem test_phy_ST3 :
    steps { (code [0xDA]) with y := 0xCD }
      (fun t => t.sp == 1 && t.stack[0] == 0xCD) = true := by decide

theorem test_pla_ST4 :
    steps { (stacked [0x11, 0x80] (code [0xDB])) with a := 0x01 }
      (fun t => t.a == 0x80 && t.sp == 1 && zncIs false true false t) = true := by decide +kernel

theorem test_pla_ST7 :
    steps { (code [0xDB]) with a := 0x42, z := true }
      (fun t => t.a == 0x42 && zncIs true false false t && t.status == .halted .stackUnderflow) = true := by decide

theorem test_plx_ST5 :
    steps { (stacked [0x00] (code [0xDC])) with x := 0x55, c := true }
      (fun t => t.x == 0x00 && t.sp == 0 && zncIs true false true t) = true := by decide +kernel

theorem test_ply_ST6 :
    steps (stacked [0x7F] (code [0xDD]))
      (fun t => t.y == 0x7F && zncIs false false false t) = true := by decide +kernel

theorem test_pha_ST9 :
    steps { (code [0xD8]) with a := 0x42, sp := 255 }
      (fun t => t.sp == 256 && t.stack[255] == 0x42 && t.status == .running) = true := by decide +kernel

/-- The four reserved bytes and the eleven unassigned ones (vectors HF2 to HF5). -/
theorem test_illegal_bytes :
    ([0xE1, 0xE2, 0xE3, 0xE4, 0xE5, 0xE6, 0xE7, 0xE8] ++ [0xE9, 0xEA, 0xEB, 0xEC, 0xED, 0xEE, 0xEF] : List Byte).all
      (fun b => steps (code [b]) (fun t => t.status == .halted (.illegalOpcode b) && t.pc == 1)) = true := by decide

/-- Under another `IMPL_MAP` the reserved slot halts with the byte that map gives it, and its old byte is executable
(R57). -/
theorem test_illegal_byte_of_another_map :
    swapped.wf = true
      ∧ steps { (code [0xC8]) with params := { State.reset.params with numbering := swapped } }
          (fun t => t.status == .halted (.illegalOpcode 0xC8) && t.x == 0) = true
      ∧ steps { (code [0xE1]) with params := { State.reset.params with numbering := swapped } }
          (fun t => t.status == .running && t.x == 1) = true := by decide +kernel

theorem test_bra_BR5 :
    steps (codeAt 0x0010 [0xF2, 0x80])
      (fun t => t.pc == 0xFF92) = true := by decide

theorem test_bra_BR6 :
    steps (codeAt 0xFFF0 [0xF2, 0x7F])
      (fun t => t.pc == 0x0071) = true := by decide

theorem test_bne_BR8 :
    steps (codeAt 0x0008 [0xF4, 0xFA])
      (fun t => t.pc == 0x0004) = true := by decide

theorem test_bne_BR9 :
    steps { (codeAt 0x0008 [0xF4, 0xFA]) with z := true }
      (fun t => t.pc == 0x000A) = true := by decide

theorem test_beq_BR10 :
    steps { (code [0xF7, 0x00, 0x02]) with z := true }
      (fun t => t.pc == 0x0200) = true := by decide

theorem test_beq_BR11 :
    steps (code [0xF7, 0x00, 0x02])
      (fun t => t.pc == 0x0003) = true := by decide

theorem test_bpl_BR12 :
    steps (codeAt 0x0100 [0xF8, 0x02])
      (fun t => t.pc == 0x0104) = true := by decide

theorem test_bpl_BR13 :
    steps { (codeAt 0x0100 [0xF8, 0x02]) with n := true }
      (fun t => t.pc == 0x0102) = true := by decide

theorem test_bmi_BR14 :
    steps { (codeAt 0x0100 [0xFA, 0x02]) with n := true }
      (fun t => t.pc == 0x0104) = true := by decide

theorem test_bmi_BR15 :
    steps (codeAt 0x0100 [0xFA, 0x02])
      (fun t => t.pc == 0x0102) = true := by decide

theorem test_bcc_BR16 :
    steps (code [0xFC, 0x10])
      (fun t => t.pc == 0x0012) = true := by decide

theorem test_bcc_BR17 :
    steps { (code [0xFC, 0x10]) with c := true }
      (fun t => t.pc == 0x0002) = true := by decide

theorem test_bcs_BR18 :
    steps { (code [0xFF, 0x00, 0x80]) with c := true }
      (fun t => t.pc == 0x8000) = true := by decide

theorem test_bcs_BR19 :
    steps (code [0xFF, 0x00, 0x80])
      (fun t => t.pc == 0x0003) = true := by decide

theorem test_bsr_BR20 :
    steps (codeAt 0x0010 [0xF1, 0x00, 0x03])
      (fun t => t.pc == 0x0300 && t.sp == 2 && t.stack[0] == 0x13 && t.stack[1] == 0x00) = true := by decide

theorem test_bsr_BR26 :
    steps { (code [0xF0, 0x00]) with sp := 255 }
      (fun t => t.pc == 0x0002 && t.sp == 255 && t.status == .halted .stackOverflow) = true := by decide

theorem test_untaken_branch_checks_BR28 :
    steps { (bounded 4 [0xF4, 0x10, 0xC0, 0xC0]) with z := true }
      (fun t => t.pc == 0x0002 && t.status == .halted (.outOfBounds 18)) = true := by decide

theorem test_branch_target_size_BR30 :
    steps (bounded 2 [0xF2, 0x00])
      (fun t => t.pc == 0x0002 && t.status == .halted (.outOfBounds 2)) = true := by decide

theorem test_fetch_cut_off_HF7 :
    steps { (bounded 2 [0x01, 0x00]) with a := 0x77 }
      (fun t => t.a == 0x77 && t.pc == 0x0002 && t.status == .halted (.outOfBounds 2)) = true := by decide

theorem test_fetch_cut_off_HF8 :
    steps { (bounded 1 [0x00]) with a := 0x77 }
      (fun t => t.pc == 0x0001 && t.status == .halted (.outOfBounds 1)) = true := by decide

theorem test_fetch_wraps_HF10 :
    steps (codeAt 0xFFFF [0xC8])
      (fun t => t.x == 0x01 && t.pc == 0x0000) = true := by decide

theorem test_step_of_a_halted_machine :
    step { (code [0xC8]) with status := .halted .hlt } = .fault .noStepWhenHalted := rfl

theorem test_withFetchWord :
    steps (State.reset.withFetchWord 24 0x020001) (fun t => t.pc == 3 && t.z) = true
      ∧ steps (State.reset.withFetchWord 8 0xC8) (fun t => t.x == 1) = true := by decide

/-! ## Translator, memory ports, launch, table, trace -/

/-- Run T1, step 1: the raw byte A9 maps to LDA immediate; both shadows record the mapped byte, live memory keeps the
raw one. -/
theorem test_translator_T1 :
    steps (translated [(0xA9, 0x00), (0x8D, 0x09), (0x00, 0xC0)] (bounded 17 [0xA9, 0x07, 0x8D, 0x10, 0x00, 0x00]))
      (fun t => t.a == 0x07 && t.mem.read 0 == 0xA9
        && t.translator.all fun k => k.input.read 0 == 0x00 && k.output.read 0 == 0x00 && k.input.read 1 == 0x07) = true := by
  decide +kernel

/-- Run T2, step 1: INC reaches the output shadow alone. -/
theorem test_translator_T2 :
    steps (translated [] (bounded 17 [0x7A, 0x10, 0xC0] |> poke 0x10 0x41))
      (fun t => t.mem.read 0x10 == 0x42
        && t.translator.all fun k => k.input.read 0x10 == 0x41 && k.output.read 0x10 == 0x42) = true := by
  decide +kernel

/-- Run T3, step 5: the stored byte 01 maps to HLT. -/
theorem test_translator_T3 :
    steps (translated [(0x01, 0xC0)] { bounded 8 [0x00, 0x01, 0x09, 0x07, 0x00, 0xC8, 0xC8, 0x01] with pc := 7 })
      (fun t => t.status == .halted .hlt && t.pc == 8 && t.mem.read 7 == 0x01
        && t.translator.all fun k => k.input.read 7 == 0xC0) = true := by
  decide +kernel

/-- The port calls of property S9. -/
theorem test_ports_S9 :
    let full : Memory := { size := 0, cells := [] }
    let small : Memory := { size := 16, cells := [(15, 0x7E)] }
    (full.write 0xFFFF 0xAB).2 = true ∧ (full.write 0xFFFF 0xAB).1.read 0xFFFF = 0xAB
      ∧ small.read 0x000F = 0x7E ∧ small.read 0x0010 = 0 ∧ small.read 0xFFFF = 0
      ∧ (small.write 0x000F 1).2 = true ∧ (small.write 0x0010 1).2 = false ∧ (small.write 0x0010 1).1 = small := by
  decide

theorem test_create_and_load :
    Memory.create 2 [1, 2, 3] = none ∧ (Memory.create 4 [1, 2]).map Memory.rawView = some [1, 2, 0, 0]
      ∧ (Memory.load { size := 4, cells := [] } 3 [9]).map Memory.rawView = some [0, 0, 0, 9]
      ∧ Memory.load { size := 4, cells := [] } 3 [9, 9] = none
      ∧ Memory.load { size := 0, cells := [] } 0xFFFF [9, 9] = none ∧ Memory.create 65537 [] = none := by
  decide

theorem test_growing_memory :
    Growing.sealed [] = none ∧ (Growing.append [0x00] [0x05]).bind Growing.sealed = Memory.create 2 [0x00, 0x05]
      ∧ Growing.appendByte [0x00] 0x05 = some [0x00, 0x05] := by
  decide

theorem test_write_of_the_unlisted_byte_removes_the_cell :
    (({ size := 0, cells := [(3, 7)] } : Memory).store 3 0).cells = [] := by decide

theorem test_launch_gives_reset : Launch.reset.start = some State.reset := rfl

theorem test_launch_outside_memory_refused :
    ({ Launch.reset with mem := { size := 2, cells := [] }, pc0 := 2 } : Launch).start = none := rfl

/-- R4: a size above 65536 and a map that is no bijection are no launch arguments. -/
theorem test_launch_illegal_arguments_refused :
    ({ Launch.reset with mem := { size := 65537, cells := [] } } : Launch).create.isNone = true
      ∧ ({ Launch.reset with mem := { size := 0, cells := [(3, 0)] } } : Launch).create.isNone = true
      ∧ ({ Launch.reset with
            params :=
              { Launch.reset.params with
                numbering := { Numbering.default with br := Numbering.default.br.set 7 .bsr } } } : Launch).create.isNone
          = true := by decide

theorem test_malformed_tables :
    pairsOfTokens [some 1] = none ∧ pairsOfTokens [some 1, some 0x100] = none ∧ pairsOfTokens [none, some 1] = none
      ∧ pairsOfTokens [some 0xA9, some 0, some 0x8D, some 9] = some [(0xA9, 0), (0x8D, 9)] := by
  decide

theorem test_opcode_lookup :
    (match lookupOpcode Numbering.default ['s', 'T', 'a'] (some .zeroPage) with | .ok b => b == 0x0A | _ => false) = true
      ∧ (match lookupOpcode Numbering.default ['B', 'S', 'R'] (some .absolute) with | .ok b => b == 0xF1 | _ => false) = true
      ∧ (match lookupOpcode Numbering.default ['H', 'L', 'T'] (some .immediate) with
          | .error e => e == .illegalMode | _ => false) = true
      ∧ (match lookupOpcode Numbering.default ['N', 'O', 'P'] none with
          | .error e => e == .unknownMnemonic | _ => false) = true
      ∧ (match lookupOpcode Numbering.default ['L', 'D', 'A', 'X'] none with
          | .error e => e == .unknownMnemonic | _ => false) = true
      ∧ mnemonicOf Numbering.default 0x5C = some ['R', 'O', 'R'] ∧ mnemonicOf Numbering.default 0xE5 = none := by
  decide

theorem test_trace_of_an_inc :
    ((traceOf (traced (poke 0x50 0xFF (code [0x7A, 0x50])))).map fun r => (r.mnemonic, r.resolved, r.result))
      = some (some ['I', 'N', 'C'], some 0x50, some 0x00) := by rfl

/-- Without a trace buffer there is no record (R25). -/
theorem test_no_trace_without_a_tracer : traceOf (code [0x7A, 0x50]) = none := rfl

/-! ## Witnesses: each shows values that meet every hypothesis of the obligation it names -/

/-- A state whose byte 0x0200 is 0x80, for the operands of modes 1, 2 and 7. -/
def sample : State := poke 0x0200 0x80 (poke 0x41 0x02 (code [0x01, 0x00, 0x02]))

/-- The hypotheses that the operand statements share, met in modes 0, 1, 3 and 7. -/
def OperandMet : Prop :=
  (effectiveAddr (.imm 0x00) { sample with pc := 2 } = .ok 0x0001 ∧ sample.mem.read 0x0001 = 0x00)
    ∧ (effectiveAddr (.abs 0x0200) sample = .ok 0x0200 ∧ sample.mem.read 0x0200 = 0x80)
    ∧ (effectiveAddr (.absX 0xFFFF) { sample with x := 0xFF } = .ok 0x00FE ∧ sample.mem.read 0x00FE = 0x00)
    ∧ effectiveAddr (.indY 0x40) sample = .ok 0x0200

theorem operandMet : OperandMet := ⟨⟨rfl, rfl⟩, ⟨rfl, rfl⟩, ⟨rfl, rfl⟩, rfl⟩

theorem witness_DecodeOfEncode : Numbering.default.wf = true := by decide

theorem witness_EncodeOfDecode :
    Numbering.default.wf = true
      ∧ decodeWith Numbering.default [0x09, 0x00, 0x02, 0xC0] = .ok (.sta (.abs 0x0200), [0xC0]) :=
  ⟨by decide, rfl⟩

theorem witness_MultimodeFieldsOfTheOpcode : (0 < 24 ∧ 0 < 8) ∧ (23 < 24 ∧ 7 < 8) := by decide

theorem witness_BranchFieldsOfTheOpcode : 0 < 8 ∧ 7 < 8 := by decide

theorem witness_StepRunsTheDecodedInstruction :
    sample.status = .running ∧ decodeWith sample.params.numbering [0x01, 0x00, 0x02] = .ok (.lda (.abs 0x0200), [])
      ∧ (Instr.lda (.abs 0x0200)).form.wf = true ∧ sample.mem.inBounds sample.pc = true
      ∧ sample.translate (sample.mem.read sample.pc) = 0x01
      ∧ (sample.mem.inBounds (sample.pc + 1 + 0) = true ∧ sample.mem.read (sample.pc + 1 + 0) = 0x00)
      ∧ sample.mem.inBounds (sample.pc + 1 + 1) = true ∧ sample.mem.read (sample.pc + 1 + 1) = 0x02 :=
  ⟨rfl, rfl, rfl, rfl, rfl, ⟨rfl, rfl⟩, rfl, rfl⟩

/-- The opcode fetch, the first operand byte and the second one out of bounds. -/
theorem witness_FetchOutOfBoundsHalts :
    ((bounded 1 [0x00]).status = .running
        ∧ ({ bounded 1 [0x00] with pc := 1 } : State).mem.inBounds 1 = false)
      ∧ (1 < opLength ((bounded 1 [0x00]).translate ((bounded 1 [0x00]).mem.read 0))
        ∧ (bounded 1 [0x00]).mem.inBounds 0 = true ∧ (bounded 1 [0x00]).mem.inBounds (0 + 1) = false)
      ∧ (2 < opLength ((bounded 2 [0x01, 0x00]).translate ((bounded 2 [0x01, 0x00]).mem.read 0))
        ∧ (bounded 2 [0x01, 0x00]).mem.inBounds 0 = true ∧ (bounded 2 [0x01, 0x00]).mem.inBounds (0 + 1) = true
        ∧ (bounded 2 [0x01, 0x00]).mem.inBounds (0 + 2) = false) := by
  decide

theorem witness_HaltedMachineHasNoStep :
    ({ State.reset with status := .halted (.outOfBounds 65536) } : State).status = .halted (.outOfBounds 65536) := rfl

theorem witness_RunningMachineAlwaysSteps : State.reset.status = .running := rfl

theorem witness_StepKeepsParameters : ∃ t, step State.reset = .next t := ⟨_, rfl⟩

theorem witness_StepKeepsTheInvariant : State.reset.inv = true ∧ ∃ t, step State.reset = .next t :=
  ⟨by decide, _, rfl⟩

/-- An HLT, and the three RTS cases of the disjunction. -/
theorem witness_HaltingStepIsAtomic :
    steps (code [0xC0]) (fun t => t.status == .halted .hlt) = true
      ∧ steps (stacked [0x05] (code [0xC1])) (fun t => t.status == .halted .stackUnderflow && t.sp == 0) = true
      ∧ steps (stacked [0x04, 0x00] (bounded 4 [0xC1])) (fun t => t.status == .halted (.outOfBounds 4) && t.sp == 0) = true
      ∧ steps { bounded 1 [0xC8] with pc := 1 } (fun t => t.status == .halted (.outOfBounds 1)) = true := by
  decide +kernel

theorem witness_OutputOnlyGrows : ∃ t, step (code [0xB0, 0x41]) = .next t ∧ t.out ≠ [] := ⟨_, rfl, by decide⟩

theorem witness_OnlyJumpsLeaveTheSequence :
    (∃ t, exec (.wtx (.abs 0x0200)) sample = .next t) ∧ Instr.wtx (.abs 0x0200) ≠ .rts
      ∧ (Instr.wtx (.abs 0x0200)).form.opClass ≠ .branch :=
  ⟨⟨_, rfl⟩, by decide, by decide⟩

/-- Both bytes in bounds at the top of page 0, the low byte out of bounds, only the high byte out of bounds. -/
theorem witness_AddressOfThePointerMode :
    ((0x00FF : Addr).toNat = (0xFF : Byte).toNat ∧ (0x0100 : Addr).toNat = (0xFF : Byte).toNat + 1
        ∧ sample.mem.inBounds 0x00FF = true ∧ sample.mem.inBounds 0x0100 = true)
      ∧ (bounded 255 []).mem.inBounds 0x00FF = false
      ∧ (bounded 256 []).mem.inBounds 0x00FF = true ∧ (bounded 256 []).mem.inBounds 0x0100 = false := by
  decide

/-- One witness for each clause: an address out of bounds, the full shape, a fetched immediate, a fetched operand that
fails. -/
theorem witness_OperandCheckPrecedesTheOperation :
    (resolve (.abs 16) (bounded 16 []) = .ok 16 ∧ (bounded 16 []).mem.inBounds 16 = false)
      ∧ sample.mem.size = 0
      ∧ (∃ s1, fetchInstr (code [0x08, 0xEE]) = .ok (MmOp.sta.instr (.imm 0xEE), s1))
      ∧ (bounded 16 [0x09, 0x10, 0x00]).status = .running
      ∧ ∃ s1, fetchInstr (bounded 16 [0x09, 0x10, 0x00]) = .ok (MmOp.sta.instr (.abs 0x0010), s1)
        ∧ effectiveAddr (.abs 0x0010) s1 = .error 16 :=
  ⟨⟨rfl, rfl⟩, rfl, ⟨_, rfl⟩, rfl, _, rfl, rfl⟩

theorem witness_LoadsCopyTheOperand : OperandMet := operandMet

theorem witness_StoresWriteTheRegister : OperandMet := operandMet

theorem witness_LogicOnTheAccumulator : OperandMet := operandMet

theorem witness_ShiftsOfAnAddressedByte : OperandMet := operandMet

theorem witness_RotatesOfAnAddressedByte : OperandMet := operandMet

theorem witness_AdcIsTheNineBitSum : OperandMet := operandMet

theorem witness_SbcIsTheNineBitDifference :
    effectiveAddr (.abs 0x0200) sample = .ok 0x0200 ∧ sample.mem.read 0x0200 = 0x80
      ∧ (-129 : Int) = (sample.a.toNat : Int) - (0x80 : Byte).toNat - (1 - sample.c.toNat) := ⟨rfl, rfl, rfl⟩

theorem witness_IncDecOfAnAddressedByte : OperandMet := operandMet

theorem witness_ComparesSetFlagsFromTheDifference : OperandMet := operandMet

theorem witness_CompareCarryQuirk : OperandMet := operandMet

theorem witness_DecimalAndCharacterOutput : OperandMet := operandMet

/-- A string of one byte, and the empty one. -/
theorem witness_StringOutputEmitsTheRun :
    effectiveAddr (.abs 0x0200) sample = .ok 0x0200
      ∧ ((0x0200 : Addr).toNat + 1 < sample.mem.limit ∧ sample.mem.byteAt ((0x0200 : Addr).toNat + 1) = 0
        ∧ sample.mem.byteAt ((0x0200 : Addr).toNat + 0) ≠ 0)
      ∧ effectiveAddr (.abs 0x0201) sample = .ok 0x0201
      ∧ (0x0201 : Addr).toNat + 0 < sample.mem.limit ∧ sample.mem.byteAt ((0x0201 : Addr).toNat + 0) = 0 :=
  ⟨rfl, ⟨by decide, by decide, by decide⟩, rfl, by decide, by decide⟩

/-- A bounded memory whose last two bytes are not zero, with the effective address on each of them. -/
theorem witness_UnterminatedStringHalts :
    effectiveAddr (.abs 4) (bounded 6 [0xB9, 4, 0, 0xC0, 0x41, 0x42]) = .ok 4
      ∧ effectiveAddr (.abs 5) (bounded 6 [0xB9, 4, 0, 0xC0, 0x41, 0x42]) = .ok 5
      ∧ ∀ j, 4 ≤ j → j < 6 → (bounded 6 [0xB9, 4, 0, 0xC0, 0x41, 0x42]).mem.byteAt j ≠ 0 := by
  refine ⟨rfl, rfl, fun j h1 h2 => ?_⟩
  obtain rfl | rfl : j = 4 ∨ j = 5 := by omega
  · decide
  · decide

theorem witness_RtsReturnsToThePoppedAddress :
    2 ≤ (stacked [0x05, 0x02] (code [0xC1])).sp ∧ (stacked [0x05, 0x02] (code [0xC1])).stack[1]? = some 0x02
      ∧ (stacked [0x05, 0x02] (code [0xC1])).stack[0]? = some 0x05
      ∧ (0x0205 : Addr).toNat = (0x02 : Byte).toNat * 256 + (0x05 : Byte).toNat
      ∧ (stacked [0x05, 0x02] (code [0xC1])).mem.inBounds 0x0205 = true := by
  decide +kernel

/-- Empty stack, one entry, two entries with a target out of bounds. -/
theorem witness_RtsFaults :
    (code [0xC1]).sp = 0 ∧ (stacked [0x05] (code [0xC1])).sp = 1
      ∧ 2 ≤ (stacked [0x04, 0x00] (bounded 4 [0xC1])).sp
      ∧ (stacked [0x04, 0x00] (bounded 4 [0xC1])).stack[1]? = some 0x00
      ∧ (stacked [0x04, 0x00] (bounded 4 [0xC1])).stack[0]? = some 0x04
      ∧ (stacked [0x04, 0x00] (bounded 4 [0xC1])).mem.inBounds 0x0004 = false := by
  decide +kernel

theorem witness_PushesAddOneEntry :
    State.reset.sp < 256 ∧ ({ State.reset with sp := 255 } : State).sp < 256 := by decide

theorem witness_PullsTakeTheTopEntry :
    1 ≤ (stacked [0x11] State.reset).sp ∧ (stacked [0x11] State.reset).stack[0]? = some 0x11
      ∧ (stacked [0x11] State.reset).params.pullSetsZN = true := by
  decide +kernel

theorem witness_StackLimitsHalt : ({ State.reset with sp := 256 } : State).sp = 256 ∧ State.reset.sp = 0 := ⟨rfl, rfl⟩

/-- The clause for a legal map, met by the default one and by another, and the clause for the default map. -/
theorem witness_IllegalOpcodesHalt :
    State.reset.params.numbering.wf = true ∧ swapped.wf = true ∧ State.reset.params.numbering = Numbering.default :=
  ⟨by decide, by decide +kernel, rfl⟩

theorem witness_IllegalOpcodeRecordsTheTranslatedByte :
    (code [0xE1]).params.numbering.wf = true
      ∧ ∃ t, step (code [0xE1]) = .next t ∧ t.status = .halted (.illegalOpcode 0xE1) :=
  ⟨by decide, _, rfl, rfl⟩

theorem witness_BranchTargetOutOfBoundsHalts :
    (bounded 4 []).mem.inBounds (resolveTarget (.abs 4) (bounded 4 [])) = false
      ∧ (bounded 4 []).mem.inBounds (resolveTarget (.rel 0xFF) (bounded 4 [])) = false := by
  decide

theorem witness_BsrPushesTheReturnAddress :
    ({ State.reset with sp := 254 } : State).sp ≤ 254
      ∧ State.reset.mem.inBounds (resolveTarget (.abs 0x0300) State.reset) = true := by
  decide

theorem witness_BsrWithoutRoomHalts :
    (({ State.reset with sp := 255 } : State).sp = 255 ∨ ({ State.reset with sp := 255 } : State).sp = 256)
      ∧ (({ State.reset with sp := 256 } : State).sp = 255 ∨ ({ State.reset with sp := 256 } : State).sp = 256)
      ∧ State.reset.mem.inBounds (resolveTarget (.abs 0x0300) State.reset) = true := by
  decide

theorem witness_BranchesSetOnlyThePc :
    resolveTarget (.rel 0xFE) State.reset = 0xFFFE ∧ State.reset.mem.inBounds 0xFFFE = true := by
  decide

theorem witness_BsrThenRtsReturns :
    ({ State.reset with sp := 254 } : State).sp ≤ 254
      ∧ State.reset.mem.inBounds (resolveTarget (.abs 0x0300) State.reset) = true
      ∧ State.reset.mem.inBounds State.reset.pc = true := by
  decide

/-- The start of run T1. -/
def observed : State :=
  translated [(0xA9, 0x00), (0x8D, 0x09), (0x00, 0xC0)] (bounded 17 [0xA9, 0x07, 0x8D, 0x10, 0x00, 0x00])

/-- The common hypotheses, an instruction that is fetched, and one that is cut off after its opcode byte. -/
theorem witness_OpcodeFetchEventRecordsBothShadows :
    (∃ k, observed.translator = some k ∧ k.fits observed.mem = true ∧ observed.mem.inBounds observed.pc = true
        ∧ ∃ s1, fetchInstr observed = .ok (.lda (.imm 0x07), s1))
      ∧ ∃ k, (translated [(0xA9, 0x00)] (bounded 1 [0xA9])).translator = some k
        ∧ k.fits (translated [(0xA9, 0x00)] (bounded 1 [0xA9])).mem = true
        ∧ (translated [(0xA9, 0x00)] (bounded 1 [0xA9])).mem.inBounds 0 = true
        ∧ (translated [(0xA9, 0x00)] (bounded 1 [0xA9])).status = .running
        ∧ ∃ h, fetchInstr (translated [(0xA9, 0x00)] (bounded 1 [0xA9])) = .error h :=
  ⟨⟨_, rfl, by decide, by decide, _, by rfl⟩, _, rfl, by decide, by decide, rfl, _, by rfl⟩

/-- The opcode byte in bounds, and out of bounds. -/
theorem witness_InputShadowChangesOnlyAtTheFetch :
    (observed.inv = true ∧ (∃ k, observed.translator = some k) ∧ ∃ t, step observed = .next t)
      ∧ ({ observed with pc := 17 } : State).inv = true ∧ ({ observed with pc := 17 } : State).mem.inBounds 17 = false
      ∧ ∃ t, step { observed with pc := 17 } = .next t :=
  ⟨⟨by decide, ⟨_, rfl⟩, _, by rfl⟩, by decide, by decide, _, by rfl⟩

theorem witness_IdentityTranslatorIsTransparent :
    ∃ k, (translated [] (code [0x0A, 0x30])).translator = some k ∧ (∀ b : Byte, k.map[b.toNat] = b)
      ∧ ∃ t, step (translated [] (code [0x0A, 0x30])) = .next t :=
  ⟨_, rfl, fun b => by simp [tableOfPairs, identityTable], _, by rfl⟩

theorem witness_ShadowsNeverInfluenceTheMachine :
    ∃ k, observed.translator = some k ∧ ∃ t, step observed = .next t := ⟨_, rfl, _, by rfl⟩

/-- Both shapes, at the boundary. -/
theorem witness_MemoryPortsOfBothShapes :
    ({ size := 0, cells := [] } : Memory).size = 0 ∧ ({ size := 0, cells := [] } : Memory).inBounds 0xFFFF = true
      ∧ ({ size := 16, cells := [] } : Memory).inBounds 15 = true
      ∧ ({ size := 16, cells := [] } : Memory).inBounds 16 = false := by
  decide

/-- Each way to be malformed, at the boundary, and a list that is well formed. -/
theorem witness_LoadedTableTakesTheLastPair :
    (loadTable [some 1]).2 = true ∧ (loadTable [some 1, none]).2 = true ∧ (loadTable [some 1, some 0x100]).2 = true
      ∧ (loadTable [some 1, some 0xFF]).2 = false := ⟨rfl, rfl, rfl, rfl⟩

theorem witness_CreationSucceedsExactlyInBounds :
    Launch.reset.legal = true ∧ Launch.reset.mem.size = 0 ∧ Launch.reset.create = some State.reset
      ∧ ({ Launch.reset with mem := { size := 2, cells := [] }, pc0 := 2 } : Launch).legal = true
      ∧ ({ Launch.reset with mem := { size := 65537, cells := [] } } : Launch).legal = false :=
  ⟨by decide, rfl, rfl, by decide, by decide⟩

theorem witness_AttachmentClonesLiveMemory :
    State.reset.translator = none ∧ (translated [] State.reset).translator ≠ none :=
  ⟨rfl, by simp [translated]⟩

/-- A mnemonic in mixed case, an unknown name of three letters, and one of two. -/
theorem witness_OpcodeTableLookups :
    (Numbering.default.wf = true ∧ formName (.mm .sta (.zp 0x30)) = some ['S', 'T', 'A']
        ∧ ((Form.mm .sta (.zp 0x30)).encode Numbering.default).head? = some 0x0A
        ∧ ['s', 'T', 'a'].map Char.toUpper = ['S', 'T', 'A']
        ∧ (Form.mm .sta (.zp 0x30)).opClass.admits none = false)
      ∧ (∀ f : Form, formName f ≠ some (['n', 'o', 'P'].map Char.toUpper)) ∧ ['N', 'O'].length ≠ 3 := by
  refine ⟨by decide, fun f => ?_, by decide⟩
  cases f with
  | mm op _ => cases op <;> simp [formName, mmName]
  | impl op => cases op <;> simp [formName, implName]
  | br op _ => cases op <;> simp [formName, brName]

end Sys2Proof.Tests
end

section
/-! SUPPORT. What a step keeps of the machine invariant (`10_state.md` R13, R17; `20_memory.md` R31; `50_translator.md`
R191), operation by operation, and the theorems that settle `ResetMeetsTheInvariant` and `StepKeepsTheInvariant`. -/

namespace Sys2Proof.Machine

/-- The machine invariant, clause by clause. -/
theorem State.inv_iff (s : State) :
    s.inv = true ↔ s.sp ≤ 256 ∧ s.mem.wf = true ∧ (∀ k, s.translator = some k → k.fits s.mem = true)
      ∧ s.pc.toNat ≤ s.mem.limit ∧ s.params.numbering.wf = true := by
  cases h : s.translator <;> simp [State.inv, h, and_assoc]

theorem Translator.fits_iff (k : Translator) (m : Memory) :
    k.fits m = true ↔ k.input.wf = true ∧ k.output.wf = true ∧ k.input.size = m.size ∧ k.output.size = m.size := by
  simp [Translator.fits, and_assoc]

theorem Translator.fits_onOpcodeFetch {k : Translator} {m : Memory} (a : Addr) (op : Byte) (h : k.fits m = true) :
    (k.onOpcodeFetch a op).fits m = true := by
  obtain ⟨hi, ho, hsi, hso⟩ := (k.fits_iff m).mp h
  exact (Translator.fits_iff _ _).mpr ⟨Memory.wf_store _ a op hi, Memory.wf_store _ a op ho,
    by simpa [Translator.onOpcodeFetch] using hsi, by simpa [Translator.onOpcodeFetch] using hso⟩

theorem Translator.fits_onDataWrite {k : Translator} {m : Memory} (a : Addr) (v : Byte) (h : k.fits m = true) :
    (k.onDataWrite a v).fits (m.store a v) = true := by
  obtain ⟨hi, ho, hsi, hso⟩ := (k.fits_iff m).mp h
  exact (Translator.fits_iff _ _).mpr ⟨hi, Memory.wf_store _ a v ho,
    by simpa [Translator.onDataWrite] using hsi, by simpa [Translator.onDataWrite] using hso⟩

/-- Bounds safety of `pc` (`90_conflicts.md` C10): the address after a byte in bounds is at most the limit. -/
theorem Memory.succ_le_limit {m : Memory} {a : Addr} (h : m.inBounds a = true) : (a + 1).toNat ≤ m.limit := by
  have hlt := (Memory.inBounds_iff_limit m a).mp h
  rw [BitVec.toNat_add]
  exact (Nat.mod_le _ _).trans hlt

theorem Memory.toNat_le_limit {m : Memory} {a : Addr} (h : m.inBounds a = true) : a.toNat ≤ m.limit :=
  ((Memory.inBounds_iff_limit m a).mp h).le

/-- After the `k + 1` bytes of a run whose last one is in bounds. -/
theorem Memory.run_le_limit {m : Memory} {a : Addr} {k : Nat} (h : m.inBounds (a + BitVec.ofNat 16 k) = true) :
    (a + BitVec.ofNat 16 (k + 1)).toNat ≤ m.limit := by
  rw [BitVec.ofNat_add, ← BitVec.add_assoc]
  exact Memory.succ_le_limit h

theorem State.inv_halt {s : State} (e : Cause) (h : s.inv = true) : (s.halt e).inv = true := h

theorem State.inv_withPc {s : State} {p : Addr} (hp : p.toNat ≤ s.mem.limit) (h : s.inv = true) :
    (s.withPc p).inv = true := by
  obtain ⟨hsp, hmem, htr, _, hnum⟩ := (State.inv_iff s).mp h
  exact (State.inv_iff _).mpr ⟨hsp, hmem, htr, hp, hnum⟩

/-- Another stack of at most 256 bytes. -/
theorem State.inv_withStack {s : State} {n : Nat} (stack : Vector Byte 256) (hn : n ≤ 256) (h : s.inv = true) :
    ({ s with sp := n, stack := stack } : State).inv = true := by
  obtain ⟨_, hmem, htr, hpc, hnum⟩ := (State.inv_iff s).mp h
  exact (State.inv_iff _).mpr ⟨hn, hmem, htr, hpc, hnum⟩

theorem State.inv_noteOpcode {s : State} (a : Addr) (op : Byte) (h : s.inv = true) :
    (s.noteOpcode a op).inv = true := by
  obtain ⟨hsp, hmem, htr, hpc, hnum⟩ := (State.inv_iff s).mp h
  refine (State.inv_iff _).mpr ⟨hsp, hmem, fun k hk => ?_, hpc, hnum⟩
  obtain ⟨k0, hk0, rfl⟩ := Option.map_eq_some_iff.mp hk
  exact Translator.fits_onOpcodeFetch a op (htr k0 hk0)

theorem State.inv_store {s : State} (a : Addr) (v : Byte) (h : s.inv = true) : (s.store a v).inv = true := by
  obtain ⟨hsp, hmem, htr, hpc, hnum⟩ := (State.inv_iff s).mp h
  refine (State.inv_iff _).mpr ⟨hsp, Memory.wf_store _ a v hmem, fun k hk => ?_, by simpa using hpc, hnum⟩
  obtain ⟨k0, hk0, rfl⟩ := Option.map_eq_some_iff.mp hk
  exact Translator.fits_onDataWrite a v (htr k0 hk0)

/-- Phases 1 to 3 of the step keep the invariant when they reach an instruction. -/
theorem fetchInstr_ok_inv {s t : State} {i : Instr} (h : s.inv = true) (hf : fetchInstr s = .ok (i, t)) :
    t.inv = true := by
  obtain ⟨_, _, _, rfl, hin, _, _⟩ := fetchInstr_ok hf
  refine State.inv_withPc ?_ (State.inv_noteOpcode _ _ h)
  obtain ⟨k, hk⟩ : ∃ k, opLength (s.translate (s.mem.read s.pc)) = k + 1 :=
    Nat.exists_eq_succ_of_ne_zero (by have := opLength_cases (s.translate (s.mem.read s.pc)); omega)
  rw [hk] at hin ⊢
  exact Memory.run_le_limit (hin k (by omega))

/-- A fetch that is cut off keeps the invariant: `pc` stands after the last byte in bounds. -/
theorem fetchInstr_error_inv {s t : State} (h : s.inv = true) (hf : fetchInstr s = .error t) : t.inv = true := by
  obtain ⟨_, rfl⟩ | ⟨k, hk, _, hin, _, rfl⟩ := fetchInstr_error hf
  · exact State.inv_halt _ h
  · refine State.inv_halt _ (State.inv_withPc ?_ (State.inv_noteOpcode _ _ h))
    obtain ⟨j, rfl⟩ := Nat.exists_eq_add_of_le' hk
    exact Memory.run_le_limit (hin j (by omega))

/-- Every effect an instruction can have keeps the invariant. -/
theorem Effect.inv {i : Instr} {s t : State} (he : Effect i s t) (h : s.inv = true) : t.inv = true := by
  have hsp : s.sp ≤ 256 := ((State.inv_iff s).mp h).1
  cases he with
  | halt e _ => exact State.inv_halt e h
  | regs => exact h
  | emit => exact h
  | store ea v => exact State.inv_store ea v h
  | pushed v room => exact State.inv_withStack (s.stack.set s.sp v) (by omega) h
  | pulled => exact State.inv_withStack s.stack (by omega) h
  | jump p inBounds => exact State.inv_withPc (Memory.toNat_le_limit inBounds) h
  | call p stack inBounds room =>
    exact State.inv_withPc (s := { s with sp := s.sp + 2, stack := stack }) (Memory.toNat_le_limit inBounds)
      (State.inv_withStack stack (by omega) h)
  | ret p inBounds =>
    exact State.inv_withPc (s := { s with sp := s.sp - 2 }) (Memory.toNat_le_limit inBounds)
      (State.inv_withStack s.stack (by omega) h)
  | retShort => exact State.inv_halt _ (State.inv_withStack s.stack (by omega) h)
  | retOut a => exact State.inv_halt _ (State.inv_withStack s.stack (by omega) h)

/-- Settles O13, clause by clause: no cells, no translator, everything else 0 or the default. -/
theorem resetMeetsTheInvariant : Obligations.ResetMeetsTheInvariant := by
  unfold Obligations.ResetMeetsTheInvariant
  exact (State.inv_iff State.reset).mpr
    ⟨Nat.zero_le 256, State.reset_mem_wf, fun _ h => (nomatch h), Nat.zero_le _, Numbering.default_wf⟩

/-- Settles O14: the step ends in a fetch that is cut off, or in an effect on the state after the fetch. -/
theorem stepKeepsTheInvariant : Obligations.StepKeepsTheInvariant := by
  unfold Obligations.StepKeepsTheInvariant
  intro s t h hstep
  obtain ⟨_, hf | ⟨i, s1, hf, hx⟩⟩ := step_next hstep
  · exact fetchInstr_error_inv h hf
  · exact (exec_next hx).inv (fetchInstr_ok_inv h hf)

end Sys2Proof.Machine
end

section
/-! SUPPORT. The output stream over a step (`10_state.md` R20, `44_output.md` R120), and the theorem that settles
`OutputOnlyGrows`. -/

namespace Sys2Proof.Machine

theorem fetchInstr_ok_out {s t : State} {i : Instr} (hf : fetchInstr s = .ok (i, t)) : t.out = s.out := by
  obtain ⟨_, _, _, rfl, _⟩ := fetchInstr_ok hf
  rfl

theorem fetchInstr_error_out {s t : State} (hf : fetchInstr s = .error t) : t.out = s.out := by
  obtain ⟨_, rfl⟩ | ⟨_, _, _, _, _, rfl⟩ := fetchInstr_error hf <;> rfl

/-- An effect appends to the output, and appends nothing unless the instruction is one of the seven. -/
theorem Effect.out {i : Instr} {s t : State} (he : Effect i s t) :
    ∃ bs, t.out = s.out ++ bs ∧ (bs ≠ [] → Emits i) := by
  cases he with
  | emit bs emits => exact ⟨bs, rfl, fun _ => emits⟩
  | _ => exact ⟨[], (List.append_nil _).symm, fun h => absurd rfl h⟩

/-- Settles O16: the fetch leaves the output, and only an emitting effect adds to it. -/
theorem outputOnlyGrows : Obligations.OutputOnlyGrows := by
  unfold Obligations.OutputOnlyGrows
  intro s t hstep
  obtain ⟨_, hf | ⟨i, s1, hf, hx⟩⟩ := step_next hstep
  · exact ⟨[], by rw [fetchInstr_error_out hf, List.append_nil], fun h => absurd rfl h⟩
  · obtain ⟨bs, hout, hemits⟩ := (exec_next hx).out
    exact ⟨bs, by rw [hout, fetchInstr_ok_out hf], fun h => ⟨i, s1, hf, hemits h⟩⟩

end Sys2Proof.Machine
end

section
/-! SUPPORT. The translator as an observer (`10_state.md` R19, R23; `50_translator.md` R192, R197): each operation runs the
same way whatever translator is attached, as long as the opcode byte is mapped the same way; and the theorem that settles
`ShadowsNeverInfluenceTheMachine`. -/

namespace Sys2Proof.Machine

open Host (Outcome)

/-- The observer replaced. -/
def State.withTranslator (tr : Option Translator) (s : State) : State := { s with translator := tr }

/-- Two observers that are both absent, or hold the same table. -/
def SameTable (tr tr' : Option Translator) : Prop := tr.map Translator.map = tr'.map Translator.map

/-- What a fetch answers, its state replaced by an image. -/
def mapFetched {α : Type} (g : State → State) : Except State (α × State) → Except State (α × State)
  | .ok (x, s) => .ok (x, g s)
  | .error h => .error (g h)

/-- What a push answers, its state replaced by an image. -/
def mapPushed (g : State → State) : Except State State → Except State State
  | .ok s => .ok (g s)
  | .error h => .error (g h)

/-- What a step answers, its state replaced by an image. -/
def mapNext (g : State → State) : Outcome State Fault Refusal → Outcome State Fault Refusal
  | .next s => .next (g s)
  | .fault r => .fault r
  | .refused r => .refused r

/-- An operation that runs the same way under every observer, and leaves the observer's table as it was. -/
def IgnoresTranslator (f : State → Outcome State Fault Refusal) : Prop :=
  ∀ (s : State) (tr : Option Translator), ∃ tr', SameTable tr' tr
    ∧ f (s.withTranslator tr) = mapNext (State.withTranslator tr') (f s)

section
variable (s : State) (tr : Option Translator)
@[simp] theorem State.withTranslator_pc : (s.withTranslator tr).pc = s.pc := rfl
@[simp] theorem State.withTranslator_sp : (s.withTranslator tr).sp = s.sp := rfl
@[simp] theorem State.withTranslator_mem : (s.withTranslator tr).mem = s.mem := rfl
@[simp] theorem State.withTranslator_status : (s.withTranslator tr).status = s.status := rfl
@[simp] theorem State.withTranslator_params : (s.withTranslator tr).params = s.params := rfl
@[simp] theorem State.withTranslator_halt (e : Cause) :
    (s.withTranslator tr).halt e = (s.halt e).withTranslator tr := rfl
@[simp] theorem State.withTranslator_setZN (v : Byte) :
    (s.withTranslator tr).setZN v = (s.setZN v).withTranslator tr := rfl
@[simp] theorem State.withTranslator_withPc (p : Addr) :
    (s.withTranslator tr).withPc p = (s.withPc p).withTranslator tr := rfl
@[simp] theorem State.withTranslator_noteOpcode (a : Addr) (op : Byte) :
    (s.withTranslator tr).noteOpcode a op = (s.noteOpcode a op).withTranslator (tr.map fun t => t.onOpcodeFetch a op) :=
  rfl
@[simp] theorem State.withTranslator_store (a : Addr) (v : Byte) :
    (s.withTranslator tr).store a v = (s.store a v).withTranslator (tr.map fun t => t.onDataWrite a v) := rfl
end

theorem SameTable.refl (tr : Option Translator) : SameTable tr tr := rfl

/-- The opcode-fetch event leaves the table (`50_translator.md` R193). -/
theorem SameTable.onOpcodeFetch (tr : Option Translator) (a : Addr) (op : Byte) :
    SameTable (tr.map fun t => t.onOpcodeFetch a op) tr := by
  cases tr <;> rfl

/-- The data-write event leaves the table (`50_translator.md` R194). -/
theorem SameTable.onDataWrite (tr : Option Translator) (a : Addr) (v : Byte) :
    SameTable (tr.map fun t => t.onDataWrite a v) tr := by
  cases tr <;> rfl

/-- The translated byte, from the table alone (`40_step_and_addressing.md` R71). -/
theorem State.translate_eq (s : State) (raw : Byte) :
    s.translate raw = (s.translator.map Translator.map).elim raw fun table => table[raw.toNat] := by
  unfold State.translate
  cases s.translator <;> rfl

theorem translate_eq_of_sameTable {s s' : State} (h : SameTable s.translator s'.translator) (raw : Byte) :
    s.translate raw = s'.translate raw := by
  rw [State.translate_eq, State.translate_eq, h]

/-! ### The fetch -/

theorem fetchByte_withTranslator (s : State) (tr : Option Translator) :
    fetchByte (s.withTranslator tr) = mapFetched (State.withTranslator tr) (fetchByte s) := by
  unfold fetchByte
  by_cases h : s.mem.inBounds s.pc = true <;> simp [h, mapFetched]

/-- The opcode byte is fetched alike when the two observers map it alike. -/
theorem fetchOpcode_withTranslator (s : State) (tr : Option Translator)
    (h : ∀ raw, (s.withTranslator tr).translate raw = s.translate raw) :
    ∃ tr', SameTable tr' tr
      ∧ fetchOpcode (s.withTranslator tr) = mapFetched (State.withTranslator tr') (fetchOpcode s) := by
  unfold fetchOpcode fetchByte
  by_cases hb : s.mem.inBounds s.pc = true
  · exact ⟨_, .onOpcodeFetch tr s.pc (s.translate (s.mem.read s.pc)), by simp [hb, h, mapFetched]⟩
  · exact ⟨tr, .refl tr, by simp [hb, mapFetched]⟩

/-- Only the opcode byte is translated, so the whole instruction is fetched alike. -/
theorem fetchInstr_withTranslator (s : State) (tr : Option Translator)
    (h : ∀ raw, (s.withTranslator tr).translate raw = s.translate raw) :
    ∃ tr', SameTable tr' tr
      ∧ fetchInstr (s.withTranslator tr) = mapFetched (State.withTranslator tr') (fetchInstr s) := by
  obtain ⟨tr', hsame, hop⟩ := fetchOpcode_withTranslator s tr h
  refine ⟨tr', hsame, ?_⟩
  unfold fetchInstr
  rw [hop]
  cases fetchOpcode s with
  | error e => rfl
  | ok r =>
    obtain ⟨op, s1⟩ := r
    simp only [mapFetched, State.withTranslator_params]
    rcases opLength_cases op with hl | hl | hl
    · simp only [hl]
    · simp only [hl, fetchByte_withTranslator]
      cases fetchByte s1 <;> rfl
    · simp only [hl, fetchByte_withTranslator]
      cases fetchByte s1 with
      | error e => rfl
      | ok r1 =>
        simp only [mapFetched, fetchByte_withTranslator]
        cases fetchByte r1.2 <;> rfl

/-! ### The shared operations of the execution phase -/

/-- An operation that answers without an event of the translator. -/
theorem IgnoresTranslator.of_commutes {f : State → Outcome State Fault Refusal}
    (h : ∀ s tr, f (s.withTranslator tr) = mapNext (State.withTranslator tr) (f s)) : IgnoresTranslator f :=
  fun s tr => ⟨tr, .refl tr, h s tr⟩

theorem IgnoresTranslator.raise (e : State → Cause) (he : ∀ s tr, e (s.withTranslator tr) = e s) :
    IgnoresTranslator fun s => raise (e s) s :=
  .of_commutes fun s tr => by rw [he]; rfl

/-- The address is computed from registers and live memory, never from a shadow. -/
theorem effectiveAddr_withTranslator (o : Operand) (s : State) (tr : Option Translator) :
    effectiveAddr o (s.withTranslator tr) = effectiveAddr o s := rfl

theorem IgnoresTranslator.withOperand (o : Operand) {k : State → Addr → Outcome State Fault Refusal}
    (hk : ∀ ea, IgnoresTranslator fun s => k s ea) : IgnoresTranslator fun s => withOperand o s (k s) := by
  intro s tr
  simp only [Machine.withOperand, effectiveAddr_withTranslator]
  cases effectiveAddr o s with
  | error a => exact IgnoresTranslator.raise (fun _ => .outOfBounds a) (fun _ _ => rfl) s tr
  | ok ea => exact hk ea s tr

theorem IgnoresTranslator.reading (o : Operand) {f : State → Byte → State}
    (hf : ∀ s tr v, f (s.withTranslator tr) v = (f s v).withTranslator tr) :
    IgnoresTranslator fun s => reading o s (f s) :=
  .withOperand o fun _ => .of_commutes fun s tr => congrArg Outcome.next (hf s tr _)

theorem IgnoresTranslator.storing (o : Operand) {v : State → Byte} (hv : ∀ s tr, v (s.withTranslator tr) = v s) :
    IgnoresTranslator fun s => storing o s (v s) :=
  .withOperand o fun ea s tr => ⟨_, .onDataWrite tr ea (v s), by simp [hv, mapNext]⟩

theorem IgnoresTranslator.modifying (o : Operand) {f : State → Byte → Byte} {k : State → Byte → State → State}
    (hf : ∀ s tr, f (s.withTranslator tr) = f s)
    (hk : ∀ s tr v u tr', k (s.withTranslator tr) v (u.withTranslator tr') = (k s v u).withTranslator tr') :
    IgnoresTranslator fun s => modifying o s (f s) (k s) :=
  .withOperand o fun ea s tr => ⟨_, .onDataWrite tr ea (f s (s.mem.read ea)), by simp [hf, hk, mapNext]⟩

theorem IgnoresTranslator.shiftMemory (kind : ShiftKind) (o : Operand) : IgnoresTranslator (shiftMemory kind o) :=
  .modifying o (fun _ _ => rfl) fun _ _ _ _ _ => rfl

theorem IgnoresTranslator.withTarget (g : Target) {k : State → Addr → Outcome State Fault Refusal}
    (hk : ∀ a, IgnoresTranslator fun s => k s a) : IgnoresTranslator fun s => withTarget g s (k s) := by
  intro s tr
  have hg : resolveTarget g (s.withTranslator tr) = resolveTarget g s := rfl
  simp only [Machine.withTarget, hg, State.withTranslator_mem]
  split
  · exact hk _ s tr
  · exact IgnoresTranslator.raise (fun _ => .outOfBounds (resolveTarget g s).toNat) (fun _ _ => rfl) s tr

theorem IgnoresTranslator.branchIf (g : Target) {taken : State → Bool}
    (ht : ∀ s tr, taken (s.withTranslator tr) = taken s) : IgnoresTranslator fun s => branchIf (taken s) g s :=
  .withTarget g fun a => .of_commutes fun s tr => by
    rw [ht]
    cases taken s <;> rfl

theorem push_withTranslator (v : Byte) (s : State) (tr : Option Translator) :
    push v (s.withTranslator tr) = mapPushed (State.withTranslator tr) (push v s) := by
  unfold push
  by_cases h : s.sp < 256
  · rw [dif_pos h, dif_pos (show (s.withTranslator tr).sp < 256 from h)]; rfl
  · rw [dif_neg h, dif_neg (show ¬(s.withTranslator tr).sp < 256 from h)]; rfl

theorem pop_withTranslator (s : State) (tr : Option Translator) :
    pop (s.withTranslator tr) = mapFetched (State.withTranslator tr) (pop s) := by
  unfold pop
  by_cases h : s.sp = 0
  · rw [if_pos h, if_pos (show (s.withTranslator tr).sp = 0 from h)]; rfl
  · rw [if_neg h, if_neg (show ¬(s.withTranslator tr).sp = 0 from h)]; rfl

theorem IgnoresTranslator.push {v : State → Byte} (hv : ∀ s tr, v (s.withTranslator tr) = v s) :
    IgnoresTranslator fun s => finish (push (v s) s) :=
  .of_commutes fun s tr => by
    rw [hv, push_withTranslator]
    cases Machine.push (v s) s <;> rfl

/-- SetZN of a pulled byte reads a launch parameter only. -/
theorem State.pulledZN_withTranslator (v : Byte) (s : State) (tr : Option Translator) :
    (s.withTranslator tr).pulledZN v = (s.pulledZN v).withTranslator tr := by
  by_cases h : s.params.pullSetsZN = true <;> simp [State.pulledZN, h]

theorem IgnoresTranslator.pull {write : Byte → State → State}
    (hw : ∀ v s tr, write v (s.withTranslator tr) = (write v s).withTranslator tr) :
    IgnoresTranslator fun s => pull s write :=
  .of_commutes fun s tr => by
    unfold Machine.pull
    rw [pop_withTranslator]
    cases pop s with
    | error e => rfl
    | ok r => simp [mapFetched, mapNext, hw, State.pulledZN_withTranslator]

theorem IgnoresTranslator.execRts : IgnoresTranslator execRts :=
  .of_commutes fun s tr => by
    unfold Machine.execRts
    rw [pop_withTranslator]
    cases pop s with
    | error e => rfl
    | ok r =>
      simp only [mapFetched, pop_withTranslator]
      cases pop r.2 with
      | error e => rfl
      | ok r2 =>
        by_cases hb : r2.2.mem.inBounds (word16 r2.1 r.1) = true <;> simp [mapNext, Machine.raise, hb]

theorem IgnoresTranslator.execBsr (g : Target) : IgnoresTranslator (execBsr g) :=
  .withTarget g fun a => .of_commutes fun s tr => by
    simp only [State.withTranslator_sp, State.withTranslator_pc, push_withTranslator]
    split
    · rfl
    · cases Machine.push (lowByte s.pc) s with
      | error e => rfl
      | ok s1 =>
        simp only [mapPushed, push_withTranslator]
        cases Machine.push (highByte s.pc) s1 <;> rfl

theorem IgnoresTranslator.execWtx (o : Operand) : IgnoresTranslator (execWtx o) :=
  .withOperand o fun ea => .of_commutes fun s tr => by
    simp only [State.withTranslator_mem]
    split <;> rfl

theorem IgnoresTranslator.illegalSlot (op : ImplOp) : IgnoresTranslator (illegalSlot op) :=
  .raise (fun s => .illegalOpcode (implByte s.params.numbering op)) fun _ _ => rfl

/-! ### Every instruction, and the step -/

/-- No instruction reads the observer: it is told of a store, and nothing comes back (`50_translator.md` R197). -/
theorem exec_ignoresTranslator (i : Instr) : IgnoresTranslator (exec i) := by
  cases i with
  | lda o | ldx o | ldy o | and o | ora o | eor o | adc o | sbc o | cmp o | cpx o | cpy o | wud o | wsd o | wch o =>
    unfold exec; exact .reading o (by intros; rfl)
  | sta o | stx o | sty o => exact .storing o (by intros; rfl)
  | inc o | dec o => unfold exec; exact .modifying o (by intros; rfl) (by intros; rfl)
  | lsr o | asl o | ror o | rol o => exact .shiftMemory _ o
  | wtx o => exact .execWtx o
  | hlt => exact .raise (fun _ => .hlt) fun _ _ => rfl
  | rts => exact .execRts
  | pha | phx | phy => exact .push (by intros; rfl)
  | pla | plx | ply => exact .pull (by intros; rfl)
  | rud | rsd | rch | rtx | illegalE5 | illegalE6 | illegalE7 | illegalE8 | illegalE9 | illegalEA | illegalEB
  | illegalEC | illegalED | illegalEE | illegalEF => exact .illegalSlot _
  | bsr g => exact .execBsr g
  | bra g | bne g | beq g | bpl g | bmi g | bcc g | bcs g => exact .branchIf g (by intros; rfl)
  | lsa | asa | rra | rla | ina | dea | inx | dex | iny | dey | sez | clz | sen | cln | sec | clc
  | tax | txa | tay | tya | txy | tyx | wnl | wtb | wsp => exact .of_commutes fun _ _ => rfl

/-- A step runs alike under two observers that map every byte alike; neither event changes a table. -/
theorem step_withTranslator (s : State) (tr : Option Translator)
    (h : ∀ raw, (s.withTranslator tr).translate raw = s.translate raw) :
    ∃ tr', SameTable tr' tr ∧ step (s.withTranslator tr) = mapNext (State.withTranslator tr') (step s) := by
  obtain ⟨tr1, hsame, hfetch⟩ := fetchInstr_withTranslator s tr h
  unfold step
  rw [State.withTranslator_status, hfetch]
  cases s.status with
  | halted e => exact ⟨tr, .refl tr, rfl⟩
  | running =>
    cases fetchInstr s with
    | error e => exact ⟨tr1, hsame, rfl⟩
    | ok r =>
      obtain ⟨tr2, hsame2, hexec⟩ := exec_ignoresTranslator r.1 r.2 tr1
      exact ⟨tr2, hsame2.trans hsame, hexec⟩

/-- Settles O55: other shadows are another observer with the same table, and the step leaves one such. -/
theorem shadowsNeverInfluenceTheMachine : Obligations.ShadowsNeverInfluenceTheMachine := by
  unfold Obligations.ShadowsNeverInfluenceTheMachine
  intro s t k inp outp hk hstep
  have htable : SameTable (some { k with input := inp, output := outp }) s.translator := by rw [hk]; rfl
  obtain ⟨tr, hsame, heq⟩ := step_withTranslator s (some { k with input := inp, output := outp })
    (translate_eq_of_sameTable htable)
  obtain ⟨⟨_, inp', outp'⟩, rfl, rfl⟩ := Option.map_eq_some_iff.mp hsame
  rw [hstep] at heq
  exact ⟨inp', outp', heq⟩

end Sys2Proof.Machine
end

section
/-! SUPPORT. The memory ports (`20_memory.md` R32 to R34): what the lenient read and the strict write give in and out of
bounds, and the theorem that settles `MemoryPortsOfBothShapes`. -/

namespace Sys2Proof.Machine

/-- The full shape has no address out of bounds. -/
theorem Memory.inBounds_of_fullShape {m : Memory} (a : Addr) (h : m.size = 0) : m.inBounds a = true :=
  (m.inBounds_iff a).mpr (.inl h)

/-- The lenient read out of bounds (`20_memory.md` R33). -/
theorem Memory.read_outOfBounds {m : Memory} {a : Addr} (h : m.inBounds a = false) : m.read a = 0 := by
  simp [Memory.read_eq, h]

/-- The strict write in bounds (`20_memory.md` R34): it succeeds, and of the memory only the byte written changes. -/
theorem Memory.write_of_inBounds {m : Memory} {a : Addr} (v : Byte) (h : m.inBounds a = true) :
    (m.write a v).2 = true ∧ (m.write a v).1.read a = v ∧ (m.write a v).1.size = m.size
      ∧ ∀ b, b ≠ a → (m.write a v).1.read b = m.read b :=
  ⟨h, m.read_store_same a v h, m.store_size a v, fun _ hb => m.read_store_other v hb⟩

/-- The strict write out of bounds (`20_memory.md` R34): it fails and stores nothing. -/
theorem Memory.write_of_outOfBounds {m : Memory} {a : Addr} (v : Byte) (h : m.inBounds a = false) :
    (m.write a v).2 = false ∧ (m.write a v).1 = m :=
  ⟨h, m.store_outOfBounds a v h⟩

/-- Settles O56: the full shape is the first case of `InBounds`, and each port has one rule on either side of the bound. -/
theorem memoryPortsOfBothShapes : Obligations.MemoryPortsOfBothShapes := by
  unfold Obligations.MemoryPortsOfBothShapes
  intro m a v
  refine ⟨m.inBounds_iff a, fun hfull => ?full, fun hin => Memory.write_of_inBounds v hin, fun hout => ?out⟩
  case full => exact (Memory.write_of_inBounds v (Memory.inBounds_of_fullShape a hfull)).1
  case out =>
    obtain ⟨hfails, hkept⟩ := Memory.write_of_outOfBounds v hout
    exact ⟨hfails, hkept, Memory.read_outOfBounds hout⟩

end Sys2Proof.Machine
end

section
/-! SUPPORT. A byte list decodes exactly when it begins with an opcode byte and the operand bytes that the byte's length asks
for (`30_encoding.md` R50, R61), an encoding is such a list, and the two are inverse under a legal numbering (R52, R55, R58,
R60); with the theorems that settle `DecodeOfEncode`, `EncodeOfDecode` and `DecodeTakesTheLengthOfTheOpcode`. -/

namespace Sys2Proof

/-! ### What a decoder answers -/

/-- The form of an opcode byte and the operand bytes after it; a byte that is not there counts as 0. -/
def formOfBytes (m : Numbering) (op : Byte) (args : List Byte) : Form := formOf m op (args.getD 0 0) (args.getD 1 0)

/-- A decoder takes the opcode byte and its operand bytes, and leaves the rest (`30_encoding.md` R50, R61). -/
theorem decodeWith_opcode_args (m : Numbering) {op : Byte} {args : List Byte} (rest : List Byte)
    (hlen : opLength op = 1 + args.length) :
    decodeWith m (op :: args ++ rest) = .ok ((formOfBytes m op args).instr, rest) := by
  match args with
  | [] => simp [decodeWith, hlen, formOfBytes, build]
  | [b1] => simp [decodeWith, hlen, formOfBytes, build]
  | [b1, b2] => simp [decodeWith, hlen, formOfBytes, build]
  | _ :: _ :: _ :: _ =>
    have := Machine.opLength_cases op
    simp only [List.length_cons] at hlen
    omega

/-- A list that ends before the operand bytes its opcode byte asks for is refused (`30_encoding.md` R61). -/
theorem decodeWith_of_short (m : Numbering) {op : Byte} {rest : List Byte} (hlen : rest.length + 1 < opLength op) :
    decodeWith m (op :: rest) = .error .missingOperand := by
  obtain h | h | h := Machine.opLength_cases op
  · omega
  · match rest with
    | [] => simp [decodeWith, h]
    | _ :: _ => simp only [List.length_cons] at hlen; omega
  · match rest with
    | [] => simp [decodeWith, h]
    | [_] => simp [decodeWith, h]
    | _ :: _ :: _ => simp only [List.length_cons] at hlen; omega

/-- A list that is long enough for its opcode byte is the opcode byte, the operand bytes and the rest. -/
theorem exists_args_of_length {n : Nat} {op : Byte} {bytes : List Byte} (hpos : 1 ≤ n) (hlen : n ≤ (op :: bytes).length) :
    ∃ args, n = 1 + args.length ∧ bytes = args ++ (op :: bytes).drop n := by
  obtain ⟨k, rfl⟩ : ∃ k, n = k + 1 := ⟨n - 1, by omega⟩
  exact ⟨bytes.take k, by simp at hlen ⊢; omega, by simp⟩

theorem decodeWith_ok_iff (m : Numbering) (bytes rest : List Byte) (i : Instr) :
    decodeWith m bytes = .ok (i, rest) ↔
      ∃ op args, opLength op = 1 + args.length ∧ bytes = op :: args ++ rest ∧ i = (formOfBytes m op args).instr := by
  constructor
  · intro h
    match bytes with
    | [] => cases h
    | op :: tail =>
      by_cases hlen : opLength op ≤ (op :: tail).length
      · have hpos : 1 ≤ opLength op := by have := Machine.opLength_cases op; omega
        obtain ⟨args, hargs, htail⟩ := exists_args_of_length hpos hlen
        have hdec := decodeWith_opcode_args m ((op :: tail).drop (opLength op)) hargs
        rw [List.cons_append, ← htail, h] at hdec
        cases hdec
        exact ⟨op, args, hargs, congrArg _ htail, rfl⟩
      · rw [decodeWith_of_short m (by simpa using hlen)] at h
        cases h
  · rintro ⟨op, args, hlen, rfl, rfl⟩
    exact decodeWith_opcode_args m rest hlen

/-! ### The operand bytes -/

@[simp] theorem Operand.mode_operandOf {mode : Nat} (h : mode < 8) (b1 b2 : Byte) : (operandOf mode b1 b2).mode = mode := by
  interval_cases mode <;> rfl

theorem Operand.bytes_operandOf {mode : Nat} (h : mode < 8) (b1 b2 : Byte) :
    (operandOf mode b1 b2).bytes = if mode = 1 ∨ mode = 3 ∨ mode = 5 then [b1, b2] else [b1] := by
  interval_cases mode <;> simp [operandOf, Operand.bytes]

theorem Operand.length_bytes (o : Operand) :
    o.bytes.length = if o.mode = 1 ∨ o.mode = 3 ∨ o.mode = 5 then 2 else 1 := by
  cases o <;> rfl

theorem Operand.operandOf_mode_bytes (o : Operand) : operandOf o.mode (o.bytes.getD 0 0) (o.bytes.getD 1 0) = o := by
  cases o <;> simp [operandOf, Operand.mode, Operand.bytes]

theorem Target.length_bytes (t : Target) : t.bytes.length = 1 + t.absBit := by cases t <;> rfl

theorem Target.targetOf_absBit_bytes (t : Target) : targetOf t.absBit (t.bytes.getD 0 0) (t.bytes.getD 1 0) = t := by
  cases t <;> simp [targetOf, Target.absBit, Target.bytes]

theorem Target.absBit_targetOf {bit : Nat} (h : bit < 2) (b1 b2 : Byte) : (targetOf bit b1 b2).absBit = bit := by
  interval_cases bit <;> rfl

theorem Target.bytes_targetOf (bit : Nat) (b1 b2 : Byte) :
    (targetOf bit b1 b2).bytes = if bit = 0 then [b1] else [b1, b2] := by
  unfold targetOf
  split <;> simp [Target.bytes]

/-! ### Encoding and decoding are inverse -/

/-- The encoding of a form is an opcode byte that asks for the operand bytes after it and selects the form with them. -/
theorem Form.encode_spec {m : Numbering} (hm : m.wf = true) (f : Form) :
    ∃ op args, f.encode m = op :: args ∧ opLength op = 1 + args.length ∧ formOfBytes m op args = f := by
  obtain ⟨⟨-, hmm⟩, ⟨-, himpl⟩, -, hbr⟩ := Numbering.wf_lists hm
  cases f with
  | mm o arg =>
    obtain ⟨hi, hget⟩ := getElem_idxOf_of_mem m.mm o (hmm o)
    refine ⟨_, _, rfl, ?_, ?_⟩
    · rw [mmBase, opLength_multimode _ _ hi arg.mode_lt, arg.length_bytes]
      split <;> rfl
    · rw [formOfBytes, mmBase, formOf_multimode m _ _ hi arg.mode_lt, hget, arg.operandOf_mode_bytes]
  | impl o =>
    obtain ⟨hi, hget⟩ := getElem_idxOf_of_mem m.impl o (himpl o)
    refine ⟨_, _, rfl, ?_, ?_⟩
    · rw [implByte, opLength_implicit _ hi]
      rfl
    · rw [formOfBytes, implByte, formOf_implicit m _ hi, hget]
  | br o t =>
    obtain ⟨hi, hget⟩ := getElem_idxOf_of_mem m.br o (hbr o)
    refine ⟨_, _, rfl, ?_, ?_⟩
    · rw [brBase, opLength_branch _ _ hi t.absBit_lt, t.length_bytes]
      omega
    · rw [formOfBytes, brBase, formOf_branch m _ _ hi t.absBit_lt, hget, t.targetOf_absBit_bytes]

/-- The form that an opcode byte and its operand bytes select is encoded in these bytes. -/
theorem encode_formOfBytes {m : Numbering} (hm : m.wf = true) {op : Byte} {args : List Byte}
    (hlen : opLength op = 1 + args.length) : (formOfBytes m op args).encode m = op :: args := by
  obtain ⟨⟨hmm, -⟩, ⟨himpl, -⟩, hbr, -⟩ := Numbering.wf_lists hm
  unfold formOfBytes
  rcases opcode_fields op with ⟨i, mode, hi, hmode, rfl⟩ | ⟨i, hi, rfl⟩ | ⟨i, bit, hi, hbit, rfl⟩
  · rw [opLength_multimode i mode hi hmode] at hlen
    rw [formOf_multimode m i mode hi hmode, Form.encode, mmBase, idxOf_getElem_of_nodup m.mm hmm,
      Operand.mode_operandOf hmode, Operand.bytes_operandOf hmode]
    by_cases hwide : mode = 1 ∨ mode = 3 ∨ mode = 5
    · rw [if_pos hwide] at hlen ⊢
      obtain ⟨b1, b2, rfl⟩ := List.length_eq_two.mp (show args.length = 2 by omega)
      rfl
    · rw [if_neg hwide] at hlen ⊢
      obtain ⟨b1, rfl⟩ := List.length_eq_one_iff.mp (show args.length = 1 by omega)
      rfl
  · rw [opLength_implicit i hi] at hlen
    obtain rfl := List.eq_nil_of_length_eq_zero (show args.length = 0 by omega)
    rw [formOf_implicit m i hi, Form.encode, implByte, idxOf_getElem_of_nodup m.impl himpl]
  · rw [opLength_branch i bit hi hbit] at hlen
    rw [formOf_branch m i bit hi hbit, Form.encode, brBase, idxOf_getElem_of_nodup m.br hbr,
      Target.absBit_targetOf hbit, Target.bytes_targetOf]
    split
    · obtain ⟨b1, rfl⟩ := List.length_eq_one_iff.mp (show args.length = 1 by omega)
      rfl
    · obtain ⟨b1, b2, rfl⟩ := List.length_eq_two.mp (show args.length = 2 by omega)
      rfl

/-- Settles O1: the encoding is one opcode byte and the operand bytes it asks for, and these select the form. -/
theorem decodeOfEncode : Obligations.DecodeOfEncode := by
  unfold Obligations.DecodeOfEncode
  intro m hm i rest
  obtain ⟨op, args, henc, hlen, hform⟩ := i.form.encode_spec hm
  rw [encodeWith, henc, decodeWith_opcode_args m rest hlen, hform, Instr.form_instr]

/-- Settles O2: what a decoder takes is one opcode byte and its operand bytes, which encode the form they select. -/
theorem encodeOfDecode : Obligations.EncodeOfDecode := by
  unfold Obligations.EncodeOfDecode
  intro m hm bytes rest i hdec
  obtain ⟨op, args, hlen, rfl, rfl⟩ := (decodeWith_ok_iff m bytes rest i).mp hdec
  rw [encodeWith, Form.instr_form, encode_formOfBytes hm hlen]

theorem opLength_eq (op : Byte) :
    opLength op =
      if op.toNat < 0xC0 then (if op.toNat % 8 = 1 ∨ op.toNat % 8 = 3 ∨ op.toNat % 8 = 5 then 3 else 2)
      else if op.toNat < 0xF0 then 1 else if op.toNat % 2 = 1 then 3 else 2 := by
  unfold opLength classOf
  by_cases hmm : op.toNat < 0xC0
  · simp only [if_pos hmm]
  · by_cases himpl : op.toNat < 0xF0
    · simp only [if_neg hmm, if_pos himpl]
    · simp only [if_neg hmm, if_neg himpl]

/-- Settles O3: the length as the spec writes it is `opLength`, and a list holds the operand bytes or ends before them. -/
theorem decodeTakesTheLengthOfTheOpcode : Obligations.DecodeTakesTheLengthOfTheOpcode := by
  unfold Obligations.DecodeTakesTheLengthOfTheOpcode
  intro m op rest
  rw [← opLength_eq]
  intro len
  split
  case isTrue hlong =>
    have hpos : 1 ≤ len := by have := Machine.opLength_cases op; omega
    obtain ⟨args, hargs, hrest⟩ := exists_args_of_length hpos hlong
    have hdec := decodeWith_opcode_args m ((op :: rest).drop len) hargs
    rw [List.cons_append, ← hrest] at hdec
    exact ⟨_, hdec⟩
  case isFalse hshort => exact decodeWith_of_short m (by simpa using hshort)

end Sys2Proof
end

section
/-! SUPPORT. The fields of an opcode byte as numbers and as bits (`30_encoding.md` R51, R52, R58; `46_branch.md` R170, R171),
and words of the default map; with the theorems that settle `ClassOfOpcodeByRange`, `MultimodeFieldsOfTheOpcode`,
`BranchFieldsOfTheOpcode` and `WordsOfTheDefaultMap`. -/

namespace Sys2Proof

/-! ### The class of an opcode byte -/

@[simp] theorem opClass_formOf (m : Numbering) (op b1 b2 : Byte) : (formOf m op b1 b2).opClass = classOf op := by
  unfold formOf classOf
  by_cases hmm : op.toNat < 0xC0
  · rw [dif_pos hmm, if_pos hmm]
    rfl
  · rw [dif_neg hmm, if_neg hmm]
    by_cases himpl : op.toNat < 0xF0
    · rw [dif_pos himpl, if_pos himpl]
      rfl
    · rw [dif_neg himpl, if_neg himpl]
      rfl

theorem classOf_eq_multimode_iff (op : Byte) : classOf op = .multimode ↔ op.toNat < 0xC0 := by
  unfold classOf
  split_ifs <;> simp <;> omega

theorem classOf_eq_implicit_iff (op : Byte) : classOf op = .implicit ↔ 0xC0 ≤ op.toNat ∧ op.toNat < 0xF0 := by
  unfold classOf
  split_ifs <;> simp <;> omega

theorem classOf_eq_branch_iff (op : Byte) : classOf op = .branch ↔ 0xF0 ≤ op.toNat := by
  unfold classOf
  split_ifs <;> simp <;> omega

/-- A field of a byte as a number: the bits from `start` up are the quotient by `2 ^ start`. -/
theorem toNat_field (op : Byte) (start len : Nat) :
    (op.extractLsb' start len).toNat = op.toNat / 2 ^ start % 2 ^ len := by
  rw [BitVec.extractLsb'_toNat, Nat.shiftRight_eq_div_pow]

theorem topTwoBits_eq_iff (op : Byte) : op.extractLsb' 6 2 = 0b11#2 ↔ 0xC0 ≤ op.toNat := by
  have := op.isLt
  rw [← BitVec.toNat_inj, toNat_field, BitVec.toNat_ofNat]
  omega

theorem topFourBits_eq_iff (op : Byte) : op.extractLsb' 4 4 = 0b1111#4 ↔ 0xF0 ≤ op.toNat := by
  have := op.isLt
  rw [← BitVec.toNat_inj, toNat_field, BitVec.toNat_ofNat]
  omega

theorem opLength_of_multimode {op : Byte} (h : classOf op = .multimode) : opLength op = 2 ∨ opLength op = 3 := by
  simp only [opLength, h]
  split
  · exact .inr rfl
  · exact .inl rfl

theorem opLength_of_implicit {op : Byte} (h : classOf op = .implicit) : opLength op = 1 := by rw [opLength, h]

theorem opLength_of_branch {op : Byte} (h : classOf op = .branch) : opLength op = 2 ∨ opLength op = 3 := by
  simp only [opLength, h]
  split
  · exact .inr rfl
  · exact .inl rfl

/-- Settles O4: the class of the form is `classOf`, whose ranges are those of the top two and the top four bits. -/
theorem classOfOpcodeByRange : Obligations.ClassOfOpcodeByRange := by
  unfold Obligations.ClassOfOpcodeByRange
  intro m op b1 b2
  rw [opClass_formOf, Ne, Ne, topTwoBits_eq_iff, topFourBits_eq_iff, classOf_eq_multimode_iff, classOf_eq_implicit_iff,
    classOf_eq_branch_iff]
  refine ⟨Iff.rfl, not_le.symm, Iff.rfl, and_congr_right' not_le.symm, Iff.rfl, Iff.rfl, fun h => ?mm, fun h => ?impl,
    fun h => ?br⟩
  case mm => exact opLength_of_multimode ((classOf_eq_multimode_iff op).mpr h)
  case impl => exact opLength_of_implicit ((classOf_eq_implicit_iff op).mpr h)
  case br => exact opLength_of_branch ((classOf_eq_branch_iff op).mpr h)

/-! ### The fields of a multimode and of a branch opcode byte -/

/-- The byte with an operation number above its three mode bits (`30_encoding.md` R52). -/
theorem toNat_multimodeByte {opr mode : Nat} (ho : opr < 24) (hm : mode < 8) :
    (BitVec.ofNat 8 (opr * 8 + mode)).toNat = opr * 8 + mode := by
  rw [BitVec.toNat_ofNat]
  omega

/-- Settles O5: the operand is the one that the mode number and the bytes give; the fields are quotient and remainder. -/
theorem multimodeFieldsOfTheOpcode : Obligations.MultimodeFieldsOfTheOpcode := by
  unfold Obligations.MultimodeFieldsOfTheOpcode
  intro m opr mode b1 b2 ho hm
  refine ⟨operandOf mode b1 b2, Operand.mode_operandOf hm b1 b2, formOf_multimode m opr mode ho hm b1 b2, ?opr, ?mode,
    ?bytes⟩
  case opr => rw [toNat_field, toNat_multimodeByte ho hm]; omega
  case mode => rw [toNat_field, toNat_multimodeByte ho hm]; omega
  case bytes =>
    rw [Operand.bytes_operandOf hm, opLength_multimode opr mode ho hm]
    by_cases hwide : mode = 1 ∨ mode = 3 ∨ mode = 5
    · simp [hwide]
    · simp [hwide]

theorem word16_toNat (lo hi : Byte) : (word16 lo hi).toNat = hi.toNat * 256 + lo.toNat := by
  rw [word16, BitVec.toNat_append, Nat.shiftLeft_eq, Nat.mul_comm hi.toNat, ← Nat.two_pow_add_eq_or_of_lt lo.isLt]

/-- A displacement byte read as two's complement (`30_encoding.md` R60; G5). -/
theorem toInt_displacement (d : Byte) : d.toInt = if d.toNat < 128 then (d.toNat : Int) else (d.toNat : Int) - 256 := by
  rw [BitVec.toInt_eq_toNat_cond]
  split_ifs <;> omega

/-- A relative target counts, modulo 65536, from the next instruction (`46_branch.md` R170; spec decision D10). -/
theorem resolveTarget_rel_toNat (d : Byte) (s : Machine.State) :
    ((Machine.resolveTarget (.rel d) s).toNat : Int) = ((s.pc.toNat : Int) + d.toInt) % 65536 := by
  rw [Machine.resolveTarget, Machine.sext16, BitVec.toNat_add, BitVec.signExtend, BitVec.toNat_ofInt]
  omega

/-- Settles O6: bit 0 of the byte chooses the target form, and a displacement is added as a signed number. -/
theorem branchFieldsOfTheOpcode : Obligations.BranchFieldsOfTheOpcode := by
  unfold Obligations.BranchFieldsOfTheOpcode
  intro m btype b1 b2 hb
  refine ⟨⟨formOf_branch m btype 0 hb (by omega) b1 b2, opLength_branch btype 0 hb (by omega)⟩,
    ⟨word16 b1 b2, word16_toNat b1 b2, formOf_branch m btype 1 hb (by omega) b1 b2,
      opLength_branch btype 1 hb (by omega)⟩, fun s a => ⟨rfl, ?displacement⟩⟩
  case displacement => rw [resolveTarget_rel_toNat, toInt_displacement]

/-! ### Words of the default map -/

theorem decode_encode (i : Instr) : decode (encode i) = .ok (i, []) := by
  have hdec := decodeOfEncode Numbering.default Numbering.default_wf i []
  rwa [List.append_nil] at hdec

/-- Settles O7: each word is the encoding of its instruction under the default map. -/
theorem wordsOfTheDefaultMap : Obligations.WordsOfTheDefaultMap :=
  ⟨decode_encode (.lda (.imm 0x05)), decode_encode (.sta (.abs 0x0200)), decode_encode (.lda (.indY 0x80)),
    decode_encode (.ror (.zpX 0xF0)), decode_encode (.cpy (.absY 0x1234)), decode_encode .rts, decode_encode .pla,
    decode_encode .rud, decode_encode .illegalEF, decode_encode (.bne (.rel 0xFA)), decode_encode (.bsr (.abs 0x0300)),
    decode_encode (.wtx (.absX 0xFFF0))⟩

end Sys2Proof
end

section
/-! SUPPORT. The opcode table (`30_encoding.md` R63, R64): every mnemonic is three upper-case letters and names one operation, so
the lookup finds the class and the base byte of the form with the mnemonic; with the theorem that settles
`OpcodeTableLookups`. -/

namespace Sys2Proof.Machine

/-! ### The mnemonics -/

/-- A mnemonic is three letters that upper case leaves alone and that lower case, put back in upper case, gives again. -/
def IsMnemonic (name : List Char) : Prop :=
  name.length = 3 ∧ name.map Char.toUpper = name ∧ (name.map Char.toLower).map Char.toUpper = name

theorem isMnemonic_mmName (o : MmOp) : IsMnemonic (mmName o) := by cases o <;> exact ⟨rfl, rfl, rfl⟩

theorem isMnemonic_of_implName {o : ImplOp} {name : List Char} (h : implName o = some name) : IsMnemonic name := by
  cases o <;> cases h <;> exact ⟨rfl, rfl, rfl⟩

theorem isMnemonic_brName (o : BrOp) : IsMnemonic (brName o) := by cases o <;> exact ⟨rfl, rfl, rfl⟩

theorem isMnemonic_of_formName {f : Form} {name : List Char} (h : formName f = some name) : IsMnemonic name := by
  cases f with
  | mm o arg => cases h; exact isMnemonic_mmName o
  | impl o => exact isMnemonic_of_implName h
  | br o t => cases h; exact isMnemonic_brName o

/-- The operation of a class that an upper-case mnemonic names, as `placeholder` searches for it. -/
theorem find_mmName (o : MmOp) : MmOp.all.find? (fun o' => decide (mmName o' = mmName o)) = some o := by
  cases o <;> rfl

theorem find_implName {o : ImplOp} {name : List Char} (h : implName o = some name) :
    MmOp.all.find? (fun o' => decide (mmName o' = name)) = none
      ∧ ImplOp.all.find? (fun o' => decide (implName o' = some name)) = some o := by
  cases o <;> cases h <;> exact ⟨rfl, rfl⟩

theorem find_brName (o : BrOp) :
    MmOp.all.find? (fun o' => decide (mmName o' = brName o)) = none
      ∧ ImplOp.all.find? (fun o' => decide (implName o' = some (brName o))) = none
      ∧ BrOp.all.find? (fun o' => decide (brName o' = brName o)) = some o := by
  cases o <;> exact ⟨rfl, rfl, rfl⟩

/-! ### The two lookups -/

/-- The opcode byte of a form with its mode bits zero (`30_encoding.md` R63). -/
def baseByte (m : Numbering) : Form → Byte
  | .mm o _ => BitVec.ofNat 8 (mmBase m o)
  | .impl o => implByte m o
  | .br o _ => BitVec.ofNat 8 (brBase m o)

theorem candidateBits_operand (o : Operand) : candidateBits o.candidate = o.mode := by cases o <;> rfl

theorem candidateBits_target (t : Target) : candidateBits t.candidate = t.absBit := by cases t <;> rfl

/-- The opcode byte of an encoding is the base byte with the mode bits of the form's own mode added. -/
theorem head?_encode (m : Numbering) (f : Form) :
    (f.encode m).head? = some (baseByte m f + BitVec.ofNat 8 ((f.candidate.map candidateBits).getD 0)) := by
  cases f with
  | mm o arg => simp [Form.encode, Form.candidate, baseByte, candidateBits_operand, BitVec.ofNat_add]
  | impl o => simp [Form.encode, Form.candidate, baseByte]
  | br o t => simp [Form.encode, Form.candidate, baseByte, candidateBits_target, BitVec.ofNat_add]

/-- A spelling of a form's mnemonic in any case finds the form's class and base byte. -/
theorem placeholder_of_formName (m : Numbering) {f : Form} {spelling : List Char}
    (h : formName f = some (spelling.map Char.toUpper)) : placeholder m spelling = some (f.opClass, baseByte m f) := by
  cases f with
  | mm o arg =>
    have hname : mmName o = spelling.map Char.toUpper := Option.some.inj h
    simp only [placeholder, ← hname, find_mmName]
    rfl
  | impl o =>
    obtain ⟨hmm, himpl⟩ := find_implName h
    simp only [placeholder, hmm, himpl]
    rfl
  | br o t =>
    have hname : brName o = spelling.map Char.toUpper := Option.some.inj h
    obtain ⟨hmm, himpl, hbr⟩ := find_brName o
    simp only [placeholder, ← hname, hmm, himpl, hbr]
    rfl

/-- A spelling whose upper case is no form's mnemonic finds nothing. -/
theorem placeholder_eq_none (m : Numbering) {spelling : List Char}
    (h : ∀ f : Form, formName f ≠ some (spelling.map Char.toUpper)) : placeholder m spelling = none := by
  have hmm : MmOp.all.find? (fun o => decide (mmName o = spelling.map Char.toUpper)) = none :=
    List.find?_eq_none.mpr fun o _ => by simpa [formName] using h (.mm o (.imm 0))
  have himpl : ImplOp.all.find? (fun o => decide (implName o = some (spelling.map Char.toUpper))) = none :=
    List.find?_eq_none.mpr fun o _ => by simpa [formName] using h (.impl o)
  have hbr : BrOp.all.find? (fun o => decide (brName o = spelling.map Char.toUpper)) = none :=
    List.find?_eq_none.mpr fun o _ => by simpa [formName] using h (.br o (.rel 0))
  simp only [placeholder, hmm, himpl, hbr]

theorem lookupOpcode_ok (m : Numbering) {f : Form} {spelling : List Char} {op : Byte}
    (hname : formName f = some (spelling.map Char.toUpper)) (hop : (f.encode m).head? = some op) :
    lookupOpcode m spelling f.candidate = .ok op := by
  have hwf : f.opClass.admits f.candidate = true := by simpa [Form.wf] using Instr.wf_true f.instr
  rw [head?_encode] at hop
  simp only [lookupOpcode, placeholder_of_formName m hname, hwf, if_true, Option.some.inj hop]

theorem lookupOpcode_illegalMode (m : Numbering) {f : Form} {spelling : List Char} {mode : Option Candidate}
    (hname : formName f = some (spelling.map Char.toUpper)) (hmode : f.opClass.admits mode = false) :
    lookupOpcode m spelling mode = .error .illegalMode := by
  simp [lookupOpcode, placeholder_of_formName m hname, hmode]

theorem lookupOpcode_unknownMnemonic (m : Numbering) {spelling : List Char} (mode : Option Candidate)
    (h : ∀ f : Form, formName f ≠ some (spelling.map Char.toUpper)) :
    lookupOpcode m spelling mode = .error .unknownMnemonic := by
  simp [lookupOpcode, placeholder_eq_none m h]

/-- The mnemonic of an opcode byte does not depend on the operand bytes after it. -/
theorem formName_formOf (m : Numbering) (op b1 b2 c1 c2 : Byte) :
    formName (formOf m op b1 b2) = formName (formOf m op c1 c2) := by
  unfold formOf
  split_ifs <;> rfl

theorem mnemonicOf_head_encode {m : Numbering} (hm : m.wf = true) {f : Form} {op : Byte}
    (hop : (f.encode m).head? = some op) : mnemonicOf m op = formName f := by
  obtain ⟨op', args, henc, -, hform⟩ := f.encode_spec hm
  rw [henc] at hop
  cases hop
  rw [mnemonicOf, formName_formOf m op 0 0 (args.getD 0 0) (args.getD 1 0)]
  exact congrArg formName hform

/-- Settles O60: a spelling is looked up by its upper case, and that of a mnemonic in either case is the mnemonic. -/
theorem opcodeTableLookups : Obligations.OpcodeTableLookups := by
  unfold Obligations.OpcodeTableLookups
  intro m hm
  refine ⟨fun f op => mnemonicOf_head_encode hm, ?found, fun spelling mode => lookupOpcode_unknownMnemonic m mode, ?length⟩
  case found =>
    intro f name op hname hop
    obtain ⟨hlen, hupper, hlower⟩ := isMnemonic_of_formName hname
    refine ⟨hlen, lookupOpcode_ok m (hupper.symm ▸ hname) hop, lookupOpcode_ok m (hlower.symm ▸ hname) hop, ?_⟩
    rintro spelling rfl
    exact ⟨lookupOpcode_ok m hname hop, fun mode => lookupOpcode_illegalMode m hname⟩
  case length =>
    intro spelling mode hlen
    refine lookupOpcode_unknownMnemonic m mode fun f hname => hlen ?_
    obtain ⟨hthree, -, -⟩ := isMnemonic_of_formName hname
    simpa using hthree

end Sys2Proof.Machine
end

section
/-! SUPPORT. Where the fetch of an instruction ends (`40_step_and_addressing.md` R70 to R73): past its bytes when they are all
in bounds, at the first one that is not; and the theorems that settle `StepRunsTheDecodedInstruction`,
`FetchOutOfBoundsHalts` and `HaltedMachineHasNoStep`. -/

namespace Sys2Proof.Machine

/-! ### The step in terms of the fetch -/

theorem step_of_halted {s : State} {e : Cause} (h : s.status = .halted e) : step s = .fault .noStepWhenHalted := by
  unfold step
  rw [h]

theorem step_of_fetch_ok {s s1 : State} {i : Instr} (hr : s.status = .running) (hf : fetchInstr s = .ok (i, s1)) :
    step s = exec i s1 := by
  unfold step
  rw [hr, hf]

theorem step_of_fetch_error {s t : State} (hr : s.status = .running) (hf : fetchInstr s = .error t) :
    step s = .next t := by
  unfold step
  rw [hr, hf]

/-- Settles O10: `step` looks at the status first. -/
theorem haltedMachineHasNoStep : Obligations.HaltedMachineHasNoStep := by
  unfold Obligations.HaltedMachineHasNoStep
  intro s e h
  exact step_of_halted h

/-! ### The bytes of the instruction at `pc` -/

/-- The length of the instruction that the translated byte at `pc` begins (`30_encoding.md` R61). -/
def State.fetchLength (s : State) : Nat := opLength (s.translate (s.mem.read s.pc))

theorem State.fetchLength_pos (s : State) : 1 ≤ s.fetchLength := by
  unfold State.fetchLength
  have := opLength_cases (s.translate (s.mem.read s.pc))
  omega

/-- Byte `k` of the instruction at `pc` is the first of its bytes out of bounds. -/
structure State.FirstMissing (s : State) (k : Nat) : Prop where
  lt_length : k < s.fetchLength
  before : ∀ j, j < k → s.mem.inBounds (s.pc + BitVec.ofNat 16 j) = true
  missing : s.mem.inBounds (s.pc + BitVec.ofNat 16 k) = false

theorem State.FirstMissing.unique {s : State} {j k : Nat} (hj : s.FirstMissing j) (hk : s.FirstMissing k) : j = k := by
  obtain hlt | heq | hgt := Nat.lt_trichotomy j k
  · exact absurd (hk.before j hlt) (by simp [hj.missing])
  · exact heq
  · exact absurd (hj.before k hgt) (by simp [hk.missing])

theorem State.firstMissing_zero_iff (s : State) : s.FirstMissing 0 ↔ s.mem.inBounds s.pc = false :=
  ⟨fun h => by simpa using h.missing, fun h => ⟨s.fetchLength_pos, fun _ hj => absurd hj (by omega), by simpa using h⟩⟩

/-- What a fetch cut off at byte `k` leaves: the opcode fetch is recorded once the opcode byte is there, and `pc` stands
at the missing byte (spec decision D17). -/
def State.cutOff (s : State) (k : Nat) : State :=
  if k = 0 then s.halt (.outOfBounds s.pc.toNat)
  else ((s.noteOpcode s.pc (s.translate (s.mem.read s.pc))).withPc (s.pc + BitVec.ofNat 16 k)).halt
    (.outOfBounds (s.pc + BitVec.ofNat 16 k).toNat)

theorem State.cutOff_of_pos (s : State) {k : Nat} (hk : 1 ≤ k) :
    s.cutOff k = ((s.noteOpcode s.pc (s.translate (s.mem.read s.pc))).withPc (s.pc + BitVec.ofNat 16 k)).halt
      (.outOfBounds (s.pc + BitVec.ofNat 16 k).toNat) := if_neg (by omega)

theorem exists_firstMissing_of_fetchInstr_error {s t : State} (hf : fetchInstr s = .error t) :
    ∃ k, s.FirstMissing k ∧ t = s.cutOff k := by
  obtain ⟨hout, rfl⟩ | ⟨k, hpos, hlt, hin, hout, rfl⟩ := fetchInstr_error hf
  · exact ⟨0, s.firstMissing_zero_iff.mpr hout, rfl⟩
  · exact ⟨k, ⟨hlt, hin, hout⟩, (s.cutOff_of_pos hpos).symm⟩

/-- A fetch that succeeds has no byte missing, and one that fails stops at the only byte that is missing first. -/
theorem fetchInstr_of_firstMissing {s : State} {k : Nat} (hk : s.FirstMissing k) : fetchInstr s = .error (s.cutOff k) := by
  cases hf : fetchInstr s with
  | error t =>
    obtain ⟨j, hj, rfl⟩ := exists_firstMissing_of_fetchInstr_error hf
    rw [hj.unique hk]
  | ok r =>
    obtain ⟨_, _, _, _, hin, _, _⟩ := fetchInstr_ok hf
    exact absurd (hin k hk.lt_length) (by simp [hk.missing])

/-- Settles O9: the step ends in the fetch, cut off at the first missing byte. -/
theorem fetchOutOfBoundsHalts : Obligations.FetchOutOfBoundsHalts := by
  unfold Obligations.FetchOutOfBoundsHalts
  constructor
  · intro s hr hout
    exact step_of_fetch_error hr (fetchInstr_of_firstMissing (s.firstMissing_zero_iff.mpr hout))
  · intro s k hr hpos hlt hin hout
    rw [step_of_fetch_error hr (fetchInstr_of_firstMissing ⟨hlt, hin, hout⟩), s.cutOff_of_pos hpos]
    rfl

/-- A fetch succeeds when every byte of the instruction is in bounds, and it fetches what those bytes select. -/
theorem fetchInstr_of_inBounds {s : State}
    (hin : ∀ k, k < s.fetchLength → s.mem.inBounds (s.pc + BitVec.ofNat 16 k) = true) :
    fetchInstr s = .ok
      (build s.params.numbering (s.translate (s.mem.read s.pc)) (s.mem.read (s.pc + 1)) (s.mem.read (s.pc + 2)),
        (s.noteOpcode s.pc (s.translate (s.mem.read s.pc))).withPc (s.pc + BitVec.ofNat 16 s.fetchLength)) := by
  cases hf : fetchInstr s with
  | error t =>
    obtain ⟨k, hk, -⟩ := exists_firstMissing_of_fetchInstr_error hf
    exact absurd (hin k hk.lt_length) (by simp [hk.missing])
  | ok r =>
    obtain ⟨b1, b2, hi, ht, -, hb1, hb2⟩ := fetchInstr_ok hf
    rw [build, formOf_congr _ _ hb1 hb2, ← build] at hi
    exact congrArg Except.ok (Prod.ext hi ht)

/-- The address of operand byte `k`, counted from the opcode byte or from the byte after it. -/
theorem add_ofNat_one_add (a : Addr) (k : Nat) : a + BitVec.ofNat 16 (1 + k) = a + 1 + BitVec.ofNat 16 k := by
  rw [BitVec.ofNat_add, ← BitVec.add_assoc]
  rfl

/-- Settles O8: the fetch reads the bytes that were decoded, and leaves the state in which the instruction executes. -/
theorem stepRunsTheDecodedInstruction : Obligations.StepRunsTheDecodedInstruction := by
  unfold Obligations.StepRunsTheDecodedInstruction
  intro s op args i hr hdec _ hpc hop hargs
  obtain ⟨_, _, hlen, hcons, rfl⟩ := (decodeWith_ok_iff _ _ _ _).mp hdec
  rw [List.append_nil] at hcons
  obtain ⟨rfl, rfl⟩ := List.cons.inj hcons
  have hfetch : s.fetchLength = 1 + args.length := by rw [State.fetchLength, hop, hlen]
  have hin : ∀ k, k < s.fetchLength → s.mem.inBounds (s.pc + BitVec.ofNat 16 k) = true := by
    intro k hk
    match k with
    | 0 => simpa using hpc
    | j + 1 => rw [Nat.add_comm, add_ofNat_one_add]; exact (hargs j (by omega)).1
  have hbyte : ∀ k, k < args.length → s.mem.read (s.pc + 1 + BitVec.ofNat 16 k) = args.getD k 0 := fun k hk => by
    rw [(hargs k hk).2, List.getD_eq_getElem _ _ hk]
  have hform : formOf s.params.numbering op (s.mem.read (s.pc + 1)) (s.mem.read (s.pc + 2))
      = formOfBytes s.params.numbering op args :=
    formOf_congr _ _ (fun h => by simpa using hbyte 0 (by omega))
      (fun h => by simpa [BitVec.add_assoc] using hbyte 1 (by omega))
  rw [step_of_fetch_ok hr (fetchInstr_of_inBounds hin), hop, build, hform, hfetch, add_ofNat_one_add]

end Sys2Proof.Machine
end

section
/-! SUPPORT. The execution phase answers a state for every instruction, and no event of a step touches a parameter of the
launch (`40_step_and_addressing.md` R85, R87, R88); with the theorems that settle `RunningMachineAlwaysSteps` and
`StepKeepsParameters`. -/

namespace Sys2Proof.Machine

open Host (Outcome)

/-! ### Every instruction answers a state -/

/-- Neither a fault nor a refusal. -/
def Answers (r : Outcome State Fault Refusal) : Prop := ∃ t, r = .next t

theorem Answers.next (t : State) : Answers (.next t) := ⟨t, rfl⟩

theorem Answers.raise (e : Cause) (s : State) : Answers (raise e s) := ⟨_, rfl⟩

theorem Answers.finish (r : Except State State) : Answers (finish r) := by
  cases r with
  | ok t => exact .next t
  | error t => exact .next t

theorem Answers.withOperand {o : Operand} {s : State} {k : Addr → Outcome State Fault Refusal}
    (hk : ∀ ea, Answers (k ea)) : Answers (withOperand o s k) := by
  unfold Machine.withOperand
  cases effectiveAddr o s with
  | error a => exact .raise _ s
  | ok ea => exact hk ea

theorem Answers.reading (o : Operand) (s : State) (f : Byte → State) : Answers (reading o s f) :=
  .withOperand fun _ => .next _

theorem Answers.storing (o : Operand) (s : State) (v : Byte) : Answers (storing o s v) := .withOperand fun _ => .next _

theorem Answers.modifying (o : Operand) (s : State) (f : Byte → Byte) (k : Byte → State → State) :
    Answers (modifying o s f k) := .withOperand fun _ => .next _

theorem Answers.shiftMemory (kind : ShiftKind) (o : Operand) (s : State) : Answers (shiftMemory kind o s) :=
  .modifying o s _ _

theorem Answers.execWtx (o : Operand) (s : State) : Answers (execWtx o s) :=
  .withOperand fun _ => by
    split
    · exact .next _
    · exact .raise _ s

theorem Answers.withTarget {g : Target} {s : State} {k : Addr → Outcome State Fault Refusal}
    (hk : ∀ a, Answers (k a)) : Answers (withTarget g s k) := by
  unfold Machine.withTarget
  split
  · exact hk _
  · exact .raise _ s

theorem Answers.branchIf (taken : Bool) (g : Target) (s : State) : Answers (branchIf taken g s) :=
  .withTarget fun _ => .next _

theorem Answers.execBsr (g : Target) (s : State) : Answers (execBsr g s) :=
  .withTarget fun _ => by
    split
    · exact .raise _ s
    · cases push (lowByte s.pc) s with
      | error h => exact .next h
      | ok s1 =>
        dsimp only
        cases push (highByte s.pc) s1 with
        | error h => exact .next h
        | ok s2 => exact .next _

theorem Answers.pull (s : State) (write : Byte → State → State) : Answers (pull s write) := by
  unfold Machine.pull
  cases pop s with
  | error h => exact .next h
  | ok r => exact .next _

theorem Answers.execRts (s : State) : Answers (execRts s) := by
  unfold Machine.execRts
  cases pop s with
  | error h => exact .next h
  | ok r =>
    dsimp only
    cases pop r.2 with
    | error h => exact .next h
    | ok r2 =>
      dsimp only
      split
      · exact .next _
      · exact .raise _ _

/-- Every instruction has a meaning in every state: it answers a next state. -/
theorem exec_answers (i : Instr) (s : State) : Answers (exec i s) := by
  cases i with
  | lda o | ldx o | ldy o | and o | ora o | eor o | adc o | sbc o | cmp o | cpx o | cpy o | wud o | wsd o | wch o =>
    unfold exec; exact .reading o s _
  | sta o | stx o | sty o => exact .storing o s _
  | inc o | dec o => unfold exec; exact .modifying o s _ _
  | lsr o | asl o | ror o | rol o => exact .shiftMemory _ o s
  | wtx o => exact .execWtx o s
  | hlt => exact .raise .hlt s
  | rts => exact .execRts s
  | pha | phx | phy => exact .finish _
  | pla | plx | ply => exact .pull s _
  | rud | rsd | rch | rtx | illegalE5 | illegalE6 | illegalE7 | illegalE8 | illegalE9 | illegalEA | illegalEB
  | illegalEC | illegalED | illegalEE | illegalEF => exact .raise _ s
  | bsr g => exact .execBsr g s
  | bra g | bne g | beq g | bpl g | bmi g | bcc g | bcs g => exact .branchIf _ g s
  | lsa | asa | rra | rla | ina | dea | inx | dex | iny | dey | sez | clz | sen | cln | sec | clc
  | tax | txa | tay | tya | txy | tyx | wnl | wtb | wsp => exact .next _

/-- Settles O11: a fetch that is cut off answers the state it reached, and every instruction fetched answers one. -/
theorem runningMachineAlwaysSteps : Obligations.RunningMachineAlwaysSteps := by
  unfold Obligations.RunningMachineAlwaysSteps
  intro s hr
  cases hf : fetchInstr s with
  | error t => exact ⟨t, step_of_fetch_error hr hf⟩
  | ok r =>
    rw [step_of_fetch_ok hr hf]
    exact exec_answers r.1 r.2

/-! ### What no step changes -/

/-- The memory size, the launch parameters, and the presence and table of the translator are those of `s`. -/
structure SameParameters (s t : State) : Prop where
  size : t.mem.size = s.mem.size
  params : t.params = s.params
  table : SameTable t.translator s.translator

theorem SameParameters.trans {s t u : State} (hst : SameParameters s t) (htu : SameParameters t u) :
    SameParameters s u :=
  ⟨htu.size.trans hst.size, htu.params.trans hst.params, Eq.trans htu.table hst.table⟩

/-- An update of other fields. -/
theorem SameParameters.of_eq {s t : State} (hm : t.mem = s.mem) (hp : t.params = s.params)
    (ht : t.translator = s.translator) : SameParameters s t := ⟨congrArg _ hm, hp, congrArg _ ht⟩

theorem SameParameters.noteOpcode (s : State) (a : Addr) (op : Byte) : SameParameters s (s.noteOpcode a op) :=
  ⟨rfl, rfl, .onOpcodeFetch s.translator a op⟩

theorem SameParameters.store (s : State) (a : Addr) (v : Byte) : SameParameters s (s.store a v) :=
  ⟨s.mem.store_size a v, rfl, .onDataWrite s.translator a v⟩

theorem fetchInstr_ok_sameParameters {s t : State} {i : Instr} (hf : fetchInstr s = .ok (i, t)) :
    SameParameters s t := by
  obtain ⟨_, _, _, rfl, _⟩ := fetchInstr_ok hf
  exact (SameParameters.noteOpcode s _ _).trans (.of_eq rfl rfl rfl)

theorem fetchInstr_error_sameParameters {s t : State} (hf : fetchInstr s = .error t) : SameParameters s t := by
  obtain ⟨_, rfl⟩ | ⟨_, _, _, _, _, rfl⟩ := fetchInstr_error hf
  · exact .of_eq rfl rfl rfl
  · exact (SameParameters.noteOpcode s _ _).trans (.of_eq rfl rfl rfl)

/-- Only a store reaches memory or the translator, and it keeps the size and the table. -/
theorem Effect.sameParameters {i : Instr} {s t : State} (he : Effect i s t) : SameParameters s t := by
  cases he with
  | store ea v => exact (SameParameters.store s ea v).trans (.of_eq rfl rfl rfl)
  | _ => exact .of_eq rfl rfl rfl

/-- Settles O12: the fetch keeps the parameters, and so does every effect of an instruction. -/
theorem stepKeepsParameters : Obligations.StepKeepsParameters := by
  unfold Obligations.StepKeepsParameters
  intro s t hstep
  have hsame : SameParameters s t := by
    obtain ⟨_, hf | ⟨i, s1, hf, hx⟩⟩ := step_next hstep
    · exact fetchInstr_error_sameParameters hf
    · exact (fetchInstr_ok_sameParameters hf).trans (exec_next hx).sameParameters
  exact ⟨hsame.size, hsame.params, hsame.table⟩

end Sys2Proof.Machine
end

section
/-! SUPPORT. The addresses of the eight modes as numbers (`40_step_and_addressing.md` R74 to R83) and the bounds check that
stands before every multimode operation; with the theorems that settle `AddressesOfTheDirectModes`,
`AddressOfThePointerMode` and `OperandCheckPrecedesTheOperation`. -/

namespace Sys2Proof.Machine

open Host (Outcome)

/-! ### Addresses as numbers -/

@[simp] theorem zext16_toNat (b : Byte) : (zext16 b).toNat = b.toNat :=
  BitVec.toNat_setWidth_of_le (by decide)

/-- An index is added modulo 65536 (spec decision D10). -/
theorem add_zext16_toNat (a : Addr) (b : Byte) : (a + zext16 b).toNat = (a.toNat + b.toNat) % 65536 := by
  rw [BitVec.toNat_add, zext16_toNat]

/-- A zero-page base plus an index is below 65536, so nothing wraps (`40_step_and_addressing.md` R78, R80). -/
theorem zext16_add_zext16_toNat (z b : Byte) : (zext16 z + zext16 b).toNat = z.toNat + b.toNat := by
  have hz := z.isLt
  have hb := b.isLt
  rw [add_zext16_toNat, zext16_toNat]
  omega

/-- The second pointer byte of mode 7 is at the next address, also from 0x00FF. -/
theorem zext16_add_one_toNat (z : Byte) : (zext16 z + 1).toNat = z.toNat + 1 :=
  zext16_add_zext16_toNat z 1

/-- Settles O18, mode by mode: each address is what the mode's sum gives as a number. -/
theorem addressesOfTheDirectModes : Obligations.AddressesOfTheDirectModes := by
  unfold Obligations.AddressesOfTheDirectModes
  intro s v z a
  exact ⟨⟨_, rfl, BitVec.sub_add_cancel s.pc 1⟩, rfl, ⟨_, rfl, zext16_toNat z⟩, ⟨_, rfl, add_zext16_toNat a s.x⟩,
    ⟨_, rfl, zext16_add_zext16_toNat z s.x⟩, ⟨_, rfl, add_zext16_toNat a s.y⟩,
    ⟨_, rfl, zext16_add_zext16_toNat z s.y⟩⟩

/-! ### The pointer of mode 7 -/

/-- Both pointer bytes are in bounds (`40_step_and_addressing.md` R81; spec decisions D8, D9). -/
theorem pointer_of_inBounds {z : Byte} {s : State} (hlo : s.mem.inBounds (zext16 z) = true)
    (hhi : s.mem.inBounds (zext16 z + 1) = true) :
    pointer z s = .ok (word16 (s.mem.read (zext16 z)) (s.mem.read (zext16 z + 1))) := by
  simp only [pointer, (memRead_ok_iff _ s _).mpr ⟨hlo, rfl⟩, (memRead_ok_iff _ s _).mpr ⟨hhi, rfl⟩]

theorem pointer_of_low_outOfBounds {z : Byte} {s : State} (hlo : s.mem.inBounds (zext16 z) = false) :
    pointer z s = .error z.toNat := by
  simp only [pointer, (memRead_error_iff _ s _).mpr ⟨hlo, rfl⟩, zext16_toNat]

theorem pointer_of_high_outOfBounds {z : Byte} {s : State} (hlo : s.mem.inBounds (zext16 z) = true)
    (hhi : s.mem.inBounds (zext16 z + 1) = false) : pointer z s = .error (z.toNat + 1) := by
  simp only [pointer, (memRead_ok_iff _ s _).mpr ⟨hlo, rfl⟩, (memRead_error_iff _ s _).mpr ⟨hhi, rfl⟩,
    zext16_add_one_toNat]

theorem resolve_indY_of_pointer {z : Byte} {s : State} {p : Addr} (h : pointer z s = .ok p) :
    resolve (.indY z) s = .ok (p + zext16 s.y) := by
  simp only [resolve, h]

theorem resolve_indY_of_pointer_error {z : Byte} {s : State} {a : Nat} (h : pointer z s = .error a) :
    resolve (.indY z) s = .error a := by
  simp only [resolve, h]

/-- Settles O19: the two pointer bytes stand at `z` and `z + 1`, and each is checked before the sum is formed. -/
theorem addressOfThePointerMode : Obligations.AddressOfThePointerMode := by
  unfold Obligations.AddressOfThePointerMode
  intro s z p q hp hq
  obtain rfl : p = zext16 z := BitVec.eq_of_toNat_eq (by rw [hp, zext16_toNat])
  obtain rfl : q = zext16 z + 1 := BitVec.eq_of_toNat_eq (by rw [hq, zext16_add_one_toNat])
  refine ⟨fun hlo hhi => ⟨_, resolve_indY_of_pointer (pointer_of_inBounds hlo hhi), ?sum⟩,
    fun hlo => resolve_indY_of_pointer_error (pointer_of_low_outOfBounds hlo),
    fun hlo hhi => resolve_indY_of_pointer_error (pointer_of_high_outOfBounds hlo hhi)⟩
  case sum =>
    rw [add_zext16_toNat, word16_toNat]
    omega

/-! ### The check before the operation -/

theorem effectiveAddr_of_outOfBounds {o : Operand} {s : State} {ea : Addr} (hr : resolve o s = .ok ea)
    (hout : s.mem.inBounds ea = false) : effectiveAddr o s = .error ea.toNat := by
  simp [effectiveAddr, hr, hout]

/-- In the full shape every operand resolves: only mode 7 reads memory, and no byte is out of bounds. -/
theorem exists_resolve_of_fullShape (o : Operand) {s : State} (h : s.mem.size = 0) : ∃ ea, resolve o s = .ok ea := by
  cases o with
  | indY z =>
    exact ⟨_, resolve_indY_of_pointer
      (pointer_of_inBounds (Memory.inBounds_of_fullShape _ h) (Memory.inBounds_of_fullShape _ h))⟩
  | imm v | abs a | zp z | absX a | zpX z | absY a | zpY z => exact ⟨_, rfl⟩

/-- After a fetch, the byte below `pc` is the last byte fetched, which is in bounds. -/
theorem fetchInstr_ok_last_inBounds {s s1 : State} {i : Instr} (hf : fetchInstr s = .ok (i, s1)) :
    s1.mem.inBounds (s1.pc - 1) = true := by
  obtain ⟨_, _, _, rfl, hin, _, _⟩ := fetchInstr_ok hf
  obtain ⟨k, hk⟩ := Nat.exists_eq_add_of_le' s.fetchLength_pos
  rw [State.fetchLength] at hk
  have haddr : s.pc + BitVec.ofNat 16 (k + 1) - 1 = s.pc + BitVec.ofNat 16 k := by
    rw [BitVec.ofNat_add, ← BitVec.add_assoc]
    exact BitVec.add_sub_cancel _ _
  rw [State.withPc_pc, State.withPc_mem, State.noteOpcode_mem, hk, haddr]
  exact hin k (by omega)

/-- Every multimode instruction is an operation on its effective address (`40_step_and_addressing.md` R83). -/
theorem exec_multimode (op : MmOp) (o : Operand) (s : State) : ∃ k, exec (op.instr o) s = withOperand o s k := by
  cases op <;> exact ⟨_, rfl⟩

theorem withOperand_of_error {o : Operand} {s : State} {a : Nat} (h : effectiveAddr o s = .error a)
    (k : Addr → Outcome State Fault Refusal) : withOperand o s k = raise (.outOfBounds a) s := by
  simp only [withOperand, h]

/-- Settles O20: every multimode instruction runs behind the one check of `withOperand`, on the state after the fetch. -/
theorem operandCheckPrecedesTheOperation : Obligations.OperandCheckPrecedesTheOperation := by
  unfold Obligations.OperandCheckPrecedesTheOperation
  refine ⟨effectiveAddr_ok_iff, fun o s ea => effectiveAddr_of_outOfBounds, fun o s h => ?full, fun op v s s1 hf => ?imm,
    fun op o s s1 a hr hf he => ⟨?halts, ?fetched⟩⟩
  case full =>
    obtain ⟨ea, hea⟩ := exists_resolve_of_fullShape o h
    exact ⟨ea, (effectiveAddr_ok_iff o s ea).mpr ⟨hea, Memory.inBounds_of_fullShape ea h⟩⟩
  case imm => exact ⟨_, (effectiveAddr_ok_iff _ s1 _).mpr ⟨rfl, fetchInstr_ok_last_inBounds hf⟩⟩
  case halts =>
    obtain ⟨k, hk⟩ := exec_multimode op o s1
    rw [step_of_fetch_ok hr hf, hk, withOperand_of_error he]
    rfl
  case fetched =>
    obtain ⟨_, _, _, rfl, _⟩ := fetchInstr_ok hf
    rfl

end Sys2Proof.Machine
end

section
/-! SUPPORT. Loads and stores on an effective address that passed the check (`41_load_store.md` R90 to R95): what a reading and
a storing operation answer, the flags that a load sets with its register, the memory side of a store, and the
theorems that settle `LoadsCopyTheOperand` and `StoresWriteTheRegister`. -/

namespace Sys2Proof.Machine

open Host (Outcome)

/-! ### The shared operations on an address that passed the check -/

theorem withOperand_of_ok {o : Operand} {s : State} {ea : Addr} (h : effectiveAddr o s = .ok ea)
    (k : Addr → Outcome State Fault Refusal) : withOperand o s k = k ea := by
  simp only [withOperand, h]

theorem reading_of_ok {o : Operand} {s : State} {ea : Addr} (h : effectiveAddr o s = .ok ea) (f : Byte → State) :
    reading o s f = .next (f (s.mem.read ea)) := withOperand_of_ok h _

theorem storing_of_ok {o : Operand} {s : State} {ea : Addr} (h : effectiveAddr o s = .ok ea) (v : Byte) :
    storing o s v = .next (s.store ea v) := withOperand_of_ok h _

/-! ### Loads -/

/-- `SetZN` with the Negative flag as bit 7 (`10_state.md` R15). -/
theorem State.setZN_eq (s : State) (v : Byte) : s.setZN v = { s with z := decide (v = 0), n := v.getLsbD 7 } := by
  rw [State.setZN, BitVec.msb_eq_getLsbD_last]

theorem State.loadA_eq (s : State) (v : Byte) :
    s.loadA v = { s with a := v, z := decide (v = 0), n := v.getLsbD 7 } := State.setZN_eq _ v

theorem State.loadX_eq (s : State) (v : Byte) :
    s.loadX v = { s with x := v, z := decide (v = 0), n := v.getLsbD 7 } := State.setZN_eq _ v

theorem State.loadY_eq (s : State) (v : Byte) :
    s.loadY v = { s with y := v, z := decide (v = 0), n := v.getLsbD 7 } := State.setZN_eq _ v

/-- Settles O21: each load is a reading operation, and the register write carries Z and N with it. -/
theorem loadsCopyTheOperand : Obligations.LoadsCopyTheOperand := by
  unfold Obligations.LoadsCopyTheOperand
  rintro o s ea _ hea rfl
  rw [← State.loadA_eq, ← State.loadX_eq, ← State.loadY_eq]
  exact ⟨reading_of_ok hea fun v => s.loadA v, reading_of_ok hea fun v => s.loadX v, reading_of_ok hea fun v => s.loadY v⟩

/-! ### Stores -/

/-- The memory side of a store in bounds: live memory and, through the data-write event, the shadow `output` take the byte
(`20_memory.md` R36, `50_translator.md` R194). -/
theorem storedByte_store {s : State} {ea : Addr} (v : Byte) (h : s.mem.inBounds ea = true) :
    StoredByte s (s.store ea v) ea v := by
  refine ⟨Memory.read_store_same _ _ _ h, fun b hb => Memory.read_store_other _ _ hb, Memory.store_size _ _ _, ?observer⟩
  rw [State.store_translator]
  cases s.translator with
  | none => trivial
  | some k =>
    exact ⟨rfl, rfl, Memory.read_store_same k.output ea v, Memory.store_size _ _ _,
      fun b hb => Memory.read_store_other _ _ hb⟩

/-- A store reaches live memory and the observer only. -/
theorem State.store_frame (s : State) (ea : Addr) (v : Byte) :
    { s.store ea v with mem := s.mem, translator := s.translator } = s := rfl

/-- What a storing operation answers on an address that passed the check, for every byte it may store. -/
theorem storing_storedByte {o : Operand} {s : State} {ea : Addr} (h : effectiveAddr o s = .ok ea) (v : Byte) :
    ∃ t, storing o s v = .next t ∧ StoredByte s t ea v ∧ { t with mem := s.mem, translator := s.translator } = s :=
  ⟨s.store ea v, storing_of_ok h v, storedByte_store v (effectiveAddr_inBounds h), State.store_frame s ea v⟩

/-- Settles O22: STA, STX and STY are one storing operation, on A, X and Y. -/
theorem storesWriteTheRegister : Obligations.StoresWriteTheRegister := by
  unfold Obligations.StoresWriteTheRegister
  intro o s ea hea
  exact ⟨storing_storedByte hea s.a, storing_storedByte hea s.x, storing_storedByte hea s.y⟩

end Sys2Proof.Machine
end

section
/-! SUPPORT. Logic, shifts and rotates on an effective address that passed the check (`42_logic_shift.md` R100 to R106): each
of the four shift kinds on bits, where the model computes with numbers, what a read-modify-write operation answers,
and the theorems that settle `LogicOnTheAccumulator`, `ShiftsOfAnAddressedByte` and `RotatesOfAnAddressedByte`. -/

namespace Sys2Proof.Machine

open Host (Outcome)

/-! ### The four shift kinds on bits -/

/-- ROR as a number is the seven upper bits of the byte below the Carry. -/
theorem shift_ror_eq_cons (v : Byte) (cin : Bool) :
    shift .ror v cin = (BitVec.cons cin (v.extractLsb' 1 7), v.getLsbD 0) := by
  refine Prod.ext (BitVec.eq_of_toNat_eq ?number) rfl
  case number =>
    have hv := v.isLt
    have hc := cin.toNat_le
    simp only [shift, BitVec.toNat_cons', BitVec.extractLsb'_toNat, BitVec.toNat_ofNat, Nat.shiftLeft_eq,
      Nat.shiftRight_eq_div_pow]
    omega

/-- ROL as a number is the Carry below the seven lower bits of the byte. -/
theorem shift_rol_eq_concat (v : Byte) (cin : Bool) :
    shift .rol v cin = ((v.setWidth 7).concat cin, v.getLsbD 7) := by
  refine Prod.ext (BitVec.eq_of_toNat_eq ?number) (BitVec.msb_eq_getLsbD_last v)
  case number =>
    have hc := cin.toNat_le
    simp only [shift, BitVec.toNat_concat, BitVec.toNat_setWidth, BitVec.toNat_ofNat]
    omega

/-- LSR is ROR with a zero coming in. -/
theorem shift_lsr_eq_ror (v : Byte) (cin : Bool) : shift .lsr v cin = shift .ror v false := by
  simp [shift]

/-- ASL is ROL with a zero coming in. -/
theorem shift_asl_eq_rol (v : Byte) (cin : Bool) : shift .asl v cin = shift .rol v false :=
  Prod.ext (BitVec.eq_of_toNat_eq (by simp [shift])) rfl

theorem shift_ror_bits (v : Byte) (cin : Bool) :
    ∃ r, shift .ror v cin = (r, v.getLsbD 0) ∧ (∀ k, k < 7 → r.getLsbD k = v.getLsbD (k + 1)) ∧ r.getLsbD 7 = cin := by
  refine ⟨_, shift_ror_eq_cons v cin, fun k hk => ?moved, ?vacated⟩
  case moved => simp [BitVec.getLsbD_cons, hk, hk.ne, Nat.add_comm]
  case vacated => rw [BitVec.getLsbD_cons, if_pos rfl]

theorem shift_rol_bits (v : Byte) (cin : Bool) :
    ∃ r, shift .rol v cin = (r, v.getLsbD 7) ∧ (∀ k, k < 7 → r.getLsbD (k + 1) = v.getLsbD k) ∧ r.getLsbD 0 = cin := by
  refine ⟨_, shift_rol_eq_concat v cin, fun k hk => ?moved, ?vacated⟩
  case moved => rw [BitVec.getLsbD_concat_succ, BitVec.getLsbD_setWidth, decide_eq_true hk, Bool.true_and]
  case vacated => exact BitVec.getLsbD_concat_zero

theorem shift_lsr_bits (v : Byte) (cin : Bool) :
    ∃ r, shift .lsr v cin = (r, v.getLsbD 0) ∧ (∀ k, k < 7 → r.getLsbD k = v.getLsbD (k + 1)) ∧ r.getLsbD 7 = false :=
  shift_lsr_eq_ror v cin ▸ shift_ror_bits v false

theorem shift_asl_bits (v : Byte) (cin : Bool) :
    ∃ r, shift .asl v cin = (r, v.getLsbD 7) ∧ (∀ k, k < 7 → r.getLsbD (k + 1) = v.getLsbD k) ∧ r.getLsbD 0 = false :=
  shift_asl_eq_rol v cin ▸ shift_rol_bits v false

/-! ### Shifts and rotates of an addressed byte -/

theorem modifying_of_ok {o : Operand} {s : State} {ea : Addr} (h : effectiveAddr o s = .ok ea) (f : Byte → Byte)
    (k : Byte → State → State) :
    modifying o s f k = .next (k (s.mem.read ea) (s.store ea (f (s.mem.read ea)))) := withOperand_of_ok h _

/-- What a shift or rotate of the addressed byte answers, for whatever its result `r` is known to satisfy: `Moved` is the
seven bits that move, `Vacated` the bit that comes in. -/
theorem shiftMemory_of_ok {kind : ShiftKind} {o : Operand} {s : State} {ea : Addr} {out : Bool}
    {Moved Vacated : Byte → Prop} (h : effectiveAddr o s = .ok ea)
    (hshift : ∃ r, shift kind (s.mem.read ea) s.c = (r, out) ∧ Moved r ∧ Vacated r) :
    ∃ (t : State) (r : Byte), shiftMemory kind o s = .next t ∧ StoredByte s t ea r ∧ Moved r ∧ Vacated r
      ∧ t.c = out ∧ t.z = decide (r = 0) ∧ t.n = r.getLsbD 7
      ∧ { t with mem := s.mem, translator := s.translator, z := s.z, n := s.n, c := s.c } = s := by
  obtain ⟨r, hr, hmoved, hvacated⟩ := hshift
  have hx : shiftMemory kind o s = .next (((s.store ea r).setC out).setZN r) := by
    rw [shiftMemory, modifying_of_ok h, hr]
  exact ⟨_, r, hx, storedByte_store r (effectiveAddr_inBounds h), hmoved, hvacated, rfl, rfl,
    BitVec.msb_eq_getLsbD_last r, rfl⟩

/-- Settles O24: the bits of LSR and ASL, stored by the one operation on the addressed byte. -/
theorem shiftsOfAnAddressedByte : Obligations.ShiftsOfAnAddressedByte := by
  unfold Obligations.ShiftsOfAnAddressedByte
  rintro o s ea _ hea rfl
  exact ⟨shiftMemory_of_ok hea (shift_lsr_bits _ s.c), shiftMemory_of_ok hea (shift_asl_bits _ s.c)⟩

/-- Settles O25: the bits of ROR and ROL, where the bit that comes in is the Carry before the instruction. -/
theorem rotatesOfAnAddressedByte : Obligations.RotatesOfAnAddressedByte := by
  unfold Obligations.RotatesOfAnAddressedByte
  rintro o s ea _ hea rfl
  exact ⟨shiftMemory_of_ok hea (shift_ror_bits _ s.c), shiftMemory_of_ok hea (shift_rol_bits _ s.c)⟩

/-! ### Logic on the accumulator -/

/-- A reading operation that puts into A a result computed from the operand. -/
theorem reading_loadA_of_ok {o : Operand} {s : State} {ea : Addr} {f : Byte → Byte} {r : Byte}
    (h : effectiveAddr o s = .ok ea) (hr : f (s.mem.read ea) = r) :
    reading o s (fun v => s.loadA (f v)) = .next { s with a := r, z := decide (r = 0), n := r.getLsbD 7 } := by
  rw [reading_of_ok h, hr, State.loadA_eq]

/-- Settles O23: each operation reads its operand into A, and the bits are those of the operation on bytes. -/
theorem logicOnTheAccumulator : Obligations.LogicOnTheAccumulator := by
  unfold Obligations.LogicOnTheAccumulator
  rintro o s ea _ hea rfl
  exact ⟨⟨_, reading_loadA_of_ok (f := (s.a &&& ·)) hea rfl, fun _ _ => BitVec.getLsbD_and⟩,
    ⟨_, reading_loadA_of_ok (f := (s.a ||| ·)) hea rfl, fun _ _ => BitVec.getLsbD_or⟩,
    ⟨_, reading_loadA_of_ok (f := (s.a ^^^ ·)) hea rfl, fun _ _ => BitVec.getLsbD_xor⟩⟩

end Sys2Proof.Machine
end

section
/-! SUPPORT. Arithmetic, increment, decrement and compare on an effective address that passed the check
(`43_arith_compare.md` R110 to R116): the results and the flags as facts about numbers, what the shared operations
answer, and the theorems that settle `AdcIsTheNineBitSum`, `SbcIsTheNineBitDifference`, `IncDecOfAnAddressedByte` and
`ComparesSetFlagsFromTheDifference`. -/

namespace Sys2Proof.Machine

open Host (Outcome)

/-! ### Differences of bytes as numbers -/

theorem byte_sub_toNat (reg m : Byte) : (reg - m).toNat = (reg.toNat + 256 - m.toNat) % 256 := by
  have hm := m.isLt
  rw [BitVec.toNat_sub]
  omega

/-! ### ADC and SBC -/

theorem subBorrow_fst_toNat (a m : Byte) (k : Bool) :
    ((subBorrow a m k).1.toNat : Int) = ((a.toNat : Int) - m.toNat - (1 - k.toNat)) % 256 := by
  rw [subBorrow, BitVec.toNat_ofInt]
  exact Int.toNat_of_nonneg (Int.emod_nonneg _ (by decide))

/-- "No borrow" is the sign of the exact difference. -/
theorem subBorrow_snd_iff_nonneg (a m : Byte) (k : Bool) :
    (subBorrow a m k).2 = true ↔ (a.toNat : Int) - m.toNat - (1 - k.toNat) ≥ 0 := decide_eq_true_iff

/-- A reading operation whose result goes to A and whose carry goes to C: Z and N follow the result. -/
theorem reading_setC_loadA_of_ok {o : Operand} {s : State} {ea : Addr} (h : effectiveAddr o s = .ok ea)
    (f : Byte → Byte × Bool) :
    ∃ t, reading o s (fun m => (s.setC (f m).2).loadA (f m).1) = .next t
      ∧ t.a = (f (s.mem.read ea)).1 ∧ t.c = (f (s.mem.read ea)).2
      ∧ (t.z = true ↔ t.a = 0) ∧ t.n = t.a.getLsbD 7
      ∧ { t with a := s.a, z := s.z, n := s.n, c := s.c } = s :=
  ⟨_, reading_of_ok h _, rfl, rfl, decide_eq_true_iff,
    BitVec.msb_eq_getLsbD_last (f (s.mem.read ea)).1, rfl⟩

/-- Settles O26: ADC reads its operand into A and C through `addCarry`, the exact sum modulo 256 and its carry. -/
theorem adcIsTheNineBitSum : Obligations.AdcIsTheNineBitSum := by
  unfold Obligations.AdcIsTheNineBitSum
  rintro o s ea _ hea rfl
  obtain ⟨t, hx, ha, hc, hrest⟩ := reading_setC_loadA_of_ok hea (addCarry s.a · s.c)
  exact ⟨t, hx, ha ▸ addCarry_fst_toNat _ _ _, hc ▸ addCarry_snd _ _ _, hrest⟩

/-- Settles O27: SBC reads its operand into A and C through `subBorrow`, the exact difference modulo 256 and its sign. -/
theorem sbcIsTheNineBitDifference : Obligations.SbcIsTheNineBitDifference := by
  unfold Obligations.SbcIsTheNineBitDifference
  rintro o s ea _ _ hea rfl rfl
  obtain ⟨t, hx, ha, hc, hrest⟩ := reading_setC_loadA_of_ok hea (subBorrow s.a · s.c)
  exact ⟨t, hx, ha ▸ subBorrow_fst_toNat _ _ _, hc ▸ subBorrow_snd_iff_nonneg _ _ _, hrest⟩

/-! ### INC and DEC -/

/-- A read-modify-write operation that stores its result and sets Z and N from it: C and every register stay. -/
theorem modifying_setZN_of_ok {o : Operand} {s : State} {ea : Addr} (h : effectiveAddr o s = .ok ea)
    (f : Byte → Byte) {r : Byte} (hr : f (s.mem.read ea) = r) :
    ∃ t, modifying o s f (fun v s1 => s1.setZN (f v)) = .next t ∧ StoredByte s t ea r
      ∧ t.z = decide (r = 0) ∧ t.n = r.getLsbD 7
      ∧ { t with mem := s.mem, translator := s.translator, z := s.z, n := s.n } = s := by
  subst hr
  exact ⟨_, modifying_of_ok h f _, storedByte_store _ (effectiveAddr_inBounds h), rfl,
    BitVec.msb_eq_getLsbD_last (f (s.mem.read ea)), rfl⟩

theorem byte_add_one_toNat (v : Byte) : (v + 1).toNat = (v.toNat + 1) % 256 := BitVec.toNat_add v 1

theorem byte_sub_one_toNat (v : Byte) : (v - 1).toNat = (v.toNat + 255) % 256 := byte_sub_toNat v 1

/-- Settles O28: INC and DEC are one operation on the addressed byte, with the successor and the predecessor modulo 256. -/
theorem incDecOfAnAddressedByte : Obligations.IncDecOfAnAddressedByte := by
  unfold Obligations.IncDecOfAnAddressedByte
  rintro o s ea v hea hv
  obtain ⟨t, hx, hstored, hflags⟩ := modifying_setZN_of_ok hea (· + 1) (congrArg (· + 1) hv)
  obtain ⟨t', hx', hstored', hflags'⟩ := modifying_setZN_of_ok hea (· - 1) (congrArg (· - 1) hv)
  exact ⟨⟨t, v + 1, hx, hstored, byte_add_one_toNat v, hflags⟩,
    ⟨t', v - 1, hx', hstored', byte_sub_one_toNat v, hflags'⟩⟩

/-! ### Compares -/

/-- The flags of a compare, from the number that is the difference modulo 256. -/
theorem compare_eq_difference (reg m : Byte) (s : State) :
    compare reg m s =
      { s with
        z := decide (reg = m)
        n := decide (128 ≤ (reg.toNat + 256 - m.toNat) % 256)
        c := decide ((reg.toNat + 256 - m.toNat) % 256 < reg.toNat) } := by
  have hz : reg - m = 0 ↔ reg = m := sub_eq_zero
  rw [compare_eq, BitVec.msb_eq_decide, byte_sub_toNat, decide_eq_decide.mpr hz]

/-- Settles O29: the three compares are one reading operation, on A, X and Y. -/
theorem comparesSetFlagsFromTheDifference : Obligations.ComparesSetFlagsFromTheDifference := by
  unfold Obligations.ComparesSetFlagsFromTheDifference
  rintro o s ea _ hea rfl
  simp only [← compare_eq_difference]
  exact ⟨reading_of_ok hea (compare s.a · s), reading_of_ok hea (compare s.x · s), reading_of_ok hea (compare s.y · s)⟩

end Sys2Proof.Machine
end

section
/-! SUPPORT. The output instructions on an effective address that passed the check (`44_output.md` R122 to R126): the decimal
text of a number against the library's digits, where the string scan ends and what it has passed, and the theorems that
settle `DecimalAndCharacterOutput`, `StringOutputEmitsTheRun` and `UnterminatedStringHalts`. -/

namespace Sys2Proof.Machine

/-! ### Decimal text -/

theorem digit_toNat (n : Nat) : (digit n).toNat = (Nat.digitChar (n % 10)).toNat := by
  rw [Nat.toNat_digitChar_of_lt_ten (Nat.mod_lt n (by decide)), digit, BitVec.toNat_ofNat]
  omega

theorem decimal_of_lt_ten {n : Nat} (h : n < 10) : decimal n = [digit n] := if_pos h

/-- The digits of a number of two or three digits are those of its quotient by ten, then its last digit. -/
theorem decimal_of_ten_le {n : Nat} (h : 10 ≤ n) (hn : n < 1000) : decimal n = decimal (n / 10) ++ [digit n] := by
  by_cases htwo : n < 100
  · rw [decimal_of_lt_ten (show n / 10 < 10 by omega), decimal, if_neg (by omega), if_pos htwo]
    rfl
  · rw [decimal, decimal, if_neg (by omega), if_neg htwo, if_neg (by omega), if_pos (by omega), Nat.div_div_eq_div_mul]
    rfl

/-- The model's decimal text is the ASCII code of the library's digits: both split off the last digit. -/
theorem decimal_toNat (n : Nat) (hn : n < 1000) :
    (decimal n).map BitVec.toNat = (Nat.toDigits 10 n).map Char.toNat := by
  induction n using Nat.strongRecOn with
  | ind n ih =>
    by_cases h : n < 10
    · rw [decimal_of_lt_ten h, Nat.toDigits_of_lt_base h, List.map_singleton, digit_toNat, Nat.mod_eq_of_lt h]
      rfl
    · have hten : 10 ≤ n := Nat.le_of_not_lt h
      rw [decimal_of_ten_le hten hn, Nat.toDigits_of_base_le (by decide) hten, List.map_append, List.map_append,
        ih (n / 10) (by omega) (by omega), List.map_singleton, digit_toNat]
      rfl

theorem signedDecimal_toNat (v : Byte) :
    (signedDecimal v).map BitVec.toNat
      = (if v.toNat < 128 then Nat.toDigits 10 v.toNat else '-' :: Nat.toDigits 10 (256 - v.toNat)).map Char.toNat := by
  rw [signedDecimal]
  split
  · exact decimal_toNat _ (by omega)
  · exact congrArg (0x2D :: ·) (decimal_toNat _ (by omega))

/-- Settles O31: the three are reading operations that emit, and the text of a byte has at most three digits. -/
theorem decimalAndCharacterOutput : Obligations.DecimalAndCharacterOutput := by
  unfold Obligations.DecimalAndCharacterOutput
  rintro o s ea _ hea rfl
  exact ⟨⟨_, reading_of_ok hea fun v => s.emit (decimal v.toNat), decimal_toNat _ (by omega)⟩,
    ⟨_, reading_of_ok hea fun v => s.emit (signedDecimal v), signedDecimal_toNat _⟩,
    reading_of_ok hea fun v => s.emit [v]⟩

/-! ### The string scan -/

theorem stringFrom_of_zero {m : Memory} {a : Nat} (fuel : Nat) (h : m.byteAt a = 0) :
    stringFrom m (fuel + 1) a = some [] := if_pos h

theorem stringFrom_of_ne_zero {m : Memory} {a : Nat} (fuel : Nat) (h : m.byteAt a ≠ 0) :
    stringFrom m (fuel + 1) a = (stringFrom m fuel (a + 1)).map (m.byteAt a :: ·) := if_neg h

/-- A scan whose fuel reaches the first zero byte gives the bytes before it. -/
theorem stringFrom_eq_some {m : Memory} {fuel a n : Nat} (hfuel : n < fuel) (hzero : m.byteAt (a + n) = 0)
    (hrun : ∀ j, j < n → m.byteAt (a + j) ≠ 0) :
    stringFrom m fuel a = some ((List.range n).map fun j => m.byteAt (a + j)) := by
  induction fuel generalizing a n with
  | zero => exact absurd hfuel (Nat.not_lt_zero n)
  | succ fuel ih =>
    cases n with
    | zero => exact stringFrom_of_zero fuel hzero
    | succ n =>
      have hfirst : m.byteAt a ≠ 0 := hrun 0 (by omega)
      have hshift (j : Nat) : a + 1 + j = a + (j + 1) := by omega
      have htail : stringFrom m fuel (a + 1) = some ((List.range n).map fun j => m.byteAt (a + 1 + j)) :=
        ih (by omega) (hshift n ▸ hzero) fun j hj => hshift j ▸ hrun (j + 1) (by omega)
      simp only [hshift] at htail
      rw [stringFrom_of_ne_zero fuel hfirst, htail, List.range_succ_eq_map, List.map_cons, List.map_map]
      rfl

/-- A scan whose fuel ends before the first zero byte gives nothing. -/
theorem stringFrom_eq_none {m : Memory} {fuel a : Nat} (h : ∀ j, a ≤ j → j < a + fuel → m.byteAt j ≠ 0) :
    stringFrom m fuel a = none := by
  induction fuel generalizing a with
  | zero => rfl
  | succ fuel ih =>
    have htail : stringFrom m fuel (a + 1) = none := ih fun j hlo hhi => h j (by omega) (by omega)
    rw [stringFrom_of_ne_zero fuel (h a (by omega) (by omega)), htail, Option.map_none]

/-! ### WTX -/

theorem execWtx_of_some {o : Operand} {s : State} {ea : Addr} {bs : List Byte} (hea : effectiveAddr o s = .ok ea)
    (hbs : stringFrom s.mem (s.mem.limit - ea.toNat) ea.toNat = some bs) : execWtx o s = .next (s.emit bs) := by
  rw [execWtx, withOperand_of_ok hea, hbs]

theorem execWtx_of_none {o : Operand} {s : State} {ea : Addr} (hea : effectiveAddr o s = .ok ea)
    (hnone : stringFrom s.mem (s.mem.limit - ea.toNat) ea.toNat = none) :
    execWtx o s = raise (.outOfBounds s.mem.limit) s := by
  rw [execWtx, withOperand_of_ok hea, hnone]

/-- Settles O32: the scan's fuel is the distance to the end of memory, so it reaches a zero byte below the end. -/
theorem stringOutputEmitsTheRun : Obligations.StringOutputEmitsTheRun := by
  unfold Obligations.StringOutputEmitsTheRun
  intro o s ea n hea hlimit hzero hrun
  exact execWtx_of_some hea (stringFrom_eq_some (by omega) hzero hrun)

/-- Settles O33: the scan's fuel ends at the end of memory, where the step halts with that address. -/
theorem unterminatedStringHalts : Obligations.UnterminatedStringHalts := by
  unfold Obligations.UnterminatedStringHalts
  intro o s ea hea hnonzero
  have hscan : stringFrom s.mem (s.mem.limit - ea.toNat) ea.toNat = none :=
    stringFrom_eq_none fun j hlo hhi => hnonzero j hlo (show j < s.mem.limit by omega)
  exact execWtx_of_none hea hscan

end Sys2Proof.Machine
end

section
/-! SUPPORT. The private stack (`10_state.md` R17): what a push and a pop answer with room and at the limits, what a pull leaves
in its register and in Z and N, and the theorems that settle `PushesAddOneEntry`, `PullsTakeTheTopEntry` and
`StackLimitsHalt`. -/

namespace Sys2Proof.Machine

/-! ### Push and pop on either side of their limits -/

theorem push_of_room {s : State} (v : Byte) (h : s.sp < 256) :
    push v s = .ok { s with stack := s.stack.set s.sp v, sp := s.sp + 1 } := (push_ok_iff v s _).mpr ⟨h, rfl⟩

theorem push_of_full {s : State} (v : Byte) (h : 256 ≤ s.sp) : push v s = .error (s.halt .stackOverflow) :=
  (push_error_iff v s _).mpr ⟨h, rfl⟩

theorem pop_of_top {s : State} {v : Byte} (h : 1 ≤ s.sp) (hv : s.stack[s.sp - 1]? = some v) :
    pop s = .ok (v, { s with sp := s.sp - 1 }) :=
  (pop_ok_iff s _ v).mpr ⟨Nat.ne_of_gt h, by rw [hv, Option.getD_some], rfl⟩

theorem pop_of_empty {s : State} (h : s.sp = 0) : pop s = .error (s.halt .stackUnderflow) :=
  (pop_error_iff s _).mpr ⟨h, rfl⟩

/-! ### PHA, PHX, PHY -/

/-- What the push instructions answer with room, for every byte they may push. -/
theorem finish_push_of_room {s : State} (v : Byte) (h : s.sp < 256) :
    ∃ t, finish (push v s) = .next t ∧ t.sp = s.sp + 1 ∧ t.stack[s.sp]? = some v
      ∧ (∀ j, j ≠ s.sp → t.stack[j]? = s.stack[j]?) ∧ { t with stack := s.stack, sp := s.sp } = s := by
  rw [push_of_room v h]
  exact ⟨_, rfl, rfl, Vector.getElem?_set_self h, fun j hj => Vector.getElem?_set_ne h hj.symm, rfl⟩

theorem finish_push_of_full {s : State} (v : Byte) (h : s.sp = 256) :
    finish (push v s) = .next { s with status := .halted .stackOverflow } := by
  rw [push_of_full v h.ge]
  rfl

/-- Settles O41: the three pushes are one operation, on A, X and Y. -/
theorem pushesAddOneEntry : Obligations.PushesAddOneEntry := by
  unfold Obligations.PushesAddOneEntry
  intro s h
  exact ⟨finish_push_of_room s.a h, finish_push_of_room s.x h, finish_push_of_room s.y h⟩

/-! ### PLA, PLX, PLY -/

/-- The parameter `PULL_SETS_ZN` decides whether Z and N follow a pulled byte (spec decision D12). -/
theorem State.pulledZN_eq (s : State) (v : Byte) :
    s.pulledZN v = if s.params.pullSetsZN then { s with z := decide (v = 0), n := v.getLsbD 7 } else s := by
  rw [State.pulledZN, State.setZN_eq]

/-- A pull writes the top entry through `write`, on the state with the entry removed. -/
theorem pull_of_top {s t : State} {v : Byte} {write : Byte → State → State} (h : 1 ≤ s.sp)
    (hv : s.stack[s.sp - 1]? = some v) (ht : write v { s with sp := s.sp - 1 } = t) :
    pull s write = .next (if t.params.pullSetsZN then { t with z := decide (v = 0), n := v.getLsbD 7 } else t) := by
  simp only [pull, pop_of_top h hv, ht, State.pulledZN_eq]

theorem pull_of_empty {s : State} (write : Byte → State → State) (h : s.sp = 0) :
    pull s write = .next { s with status := .halted .stackUnderflow } := by
  rw [pull, pop_of_empty h]
  rfl

/-- Settles O42: the three pulls are one operation, and no register write touches the launch parameters. -/
theorem pullsTakeTheTopEntry : Obligations.PullsTakeTheTopEntry := by
  unfold Obligations.PullsTakeTheTopEntry
  intro s v h hv
  exact ⟨pull_of_top h hv rfl, pull_of_top h hv rfl, pull_of_top h hv rfl⟩

/-- Settles O43: at its limit each of the six operations of the stack halts before it writes. -/
theorem stackLimitsHalt : Obligations.StackLimitsHalt := by
  unfold Obligations.StackLimitsHalt
  intro s
  exact ⟨fun h => ⟨finish_push_of_full s.a h, finish_push_of_full s.x h, finish_push_of_full s.y h⟩,
    fun h => ⟨pull_of_empty _ h, pull_of_empty _ h, pull_of_empty _ h⟩⟩

end Sys2Proof.Machine
end

section
/-! SUPPORT. Subroutine return (`45_implicit.md` R131), and a call followed by it (`46_branch.md` R173, property S7): what RTS
answers by the number of bytes on the stack, what BSR leaves there, and the theorems that settle
`RtsReturnsToThePoppedAddress`, `RtsFaults` and `BsrThenRtsReturns`. -/

namespace Sys2Proof.Machine

/-! ### RTS by the number of bytes on the stack -/

theorem execRts_of_empty {s : State} (h : s.sp = 0) : execRts s = .next (s.halt .stackUnderflow) := by
  rw [execRts, pop_of_empty h]

/-- The pop that succeeded stays done when the second one finds the stack empty (spec decision D17). -/
theorem execRts_of_single {s : State} (h : s.sp = 1) :
    execRts s = .next { s with sp := 0, status := .halted .stackUnderflow } := by
  have hfirst : pop s = .ok (s.stack[s.sp - 1]?.getD 0, { s with sp := 0 }) :=
    (pop_ok_iff s _ _).mpr ⟨by omega, rfl, by rw [h]⟩
  have hsecond : pop { s with sp := 0 } = .error (State.halt .stackUnderflow { s with sp := 0 }) := pop_of_empty rfl
  simp only [execRts, hfirst, hsecond]
  rfl

/-- With two bytes on the stack both are popped, the high byte first, and only then is the address checked. -/
theorem execRts_of_pair {s : State} {hi lo : Byte} (h : 2 ≤ s.sp) (hhi : s.stack[s.sp - 1]? = some hi)
    (hlo : s.stack[s.sp - 2]? = some lo) :
    execRts s =
      if s.mem.inBounds (word16 lo hi) then .next { s with pc := word16 lo hi, sp := s.sp - 2 }
      else raise (.outOfBounds (word16 lo hi).toNat) { s with sp := s.sp - 2 } := by
  have hfirst : pop s = .ok (hi, { s with sp := s.sp - 1 }) := pop_of_top (by omega) hhi
  have hsecond : pop { s with sp := s.sp - 1 } = .ok (lo, { s with sp := s.sp - 2 }) :=
    pop_of_top (show 1 ≤ s.sp - 1 by omega) hlo
  simp only [execRts, hfirst, hsecond]
  rfl

theorem eq_word16_of_toNat {p : Addr} {hi lo : Byte} (h : p.toNat = hi.toNat * 256 + lo.toNat) : p = word16 lo hi :=
  BitVec.eq_of_toNat_eq (by rw [h, word16_toNat])

/-- Settles O35: the two popped bytes are the address, which passes the check. -/
theorem rtsReturnsToThePoppedAddress : Obligations.RtsReturnsToThePoppedAddress := by
  unfold Obligations.RtsReturnsToThePoppedAddress
  intro s hi lo p h hhi hlo hp hin
  obtain rfl := eq_word16_of_toNat hp
  exact (execRts_of_pair h hhi hlo).trans (if_pos hin)

/-- Settles O36: the stack runs out at the first or the second pop, or the address fails the check after both. -/
theorem rtsFaults : Obligations.RtsFaults := by
  unfold Obligations.RtsFaults
  refine fun s => ⟨execRts_of_empty, execRts_of_single, fun hi lo p h hhi hlo hp hout => ?_⟩
  obtain rfl := eq_word16_of_toNat hp
  exact (execRts_of_pair h hhi hlo).trans (if_neg (by simp [hout]))

/-! ### BSR, then RTS -/

/-- With room for both bytes and the target in bounds, BSR leaves the low byte of the return address below the high byte. -/
theorem execBsr_of_room {g : Target} {s : State} (h : s.sp ≤ 254) (hin : s.mem.inBounds (resolveTarget g s) = true) :
    execBsr g s =
      .next { s with
        stack := (s.stack.set s.sp (lowByte s.pc)).set (s.sp + 1) (highByte s.pc)
        sp := s.sp + 2
        pc := resolveTarget g s } := by
  have hroom : ¬s.sp > 254 := by omega
  have hhigh := push_of_room (s := { s with stack := s.stack.set s.sp (lowByte s.pc), sp := s.sp + 1 }) (highByte s.pc)
    (show s.sp + 1 < 256 by omega)
  simp only [execBsr, withTarget, hin, if_true, hroom, if_false, push_of_room (lowByte s.pc) (show s.sp < 256 by omega),
    hhigh]
  rfl

theorem toNat_eq_high_low (a : Addr) : a.toNat = (highByte a).toNat * 256 + (lowByte a).toNat := by
  rw [← word16_toNat, word16_low_high]

/-- Settles O51: the two entries that BSR leaves are the ones RTS pops, and together they are the return address. -/
theorem bsrThenRtsReturns : Obligations.BsrThenRtsReturns := by
  unfold Obligations.BsrThenRtsReturns
  intro g s h htarget hreturn
  have hlow : s.sp < 256 := by omega
  have hhigh : s.sp + 1 < 256 := by omega
  refine ⟨_, execBsr_of_room h htarget, fun p =>
    ⟨_, rtsReturnsToThePoppedAddress _ (highByte s.pc) (lowByte s.pc) s.pc (Nat.le_add_left 2 s.sp) ?high ?low
      (toNat_eq_high_low s.pc) hreturn, rfl, fun j hj => ?live⟩⟩
  case high => exact Vector.getElem?_set_self hhigh
  case low => exact (Vector.getElem?_set_ne hhigh (Nat.succ_ne_self s.sp)).trans (Vector.getElem?_set_self hlow)
  case live => exact (Vector.getElem?_set_ne hhigh (by omega)).trans (Vector.getElem?_set_ne hlow (by omega))

end Sys2Proof.Machine
end

section
/-! SUPPORT. The implicit instructions on registers and flags (`45_implicit.md` R132 to R153): what a shift of the accumulator
answers, and the theorems that settle `ShiftsOfTheAccumulator`, `IncDecOfARegister`, `FlagInstructionsWriteOneFlag`
and `TransfersCopyARegister`. -/

namespace Sys2Proof.Machine

open Host (Outcome)

/-- What a shift or rotate of A answers, for whatever its result `r` is known to satisfy: `Moved` is the seven bits that
move, `Vacated` the bit that comes in. -/
theorem shiftA_of_shift {kind : ShiftKind} {s : State} {out : Bool} {Moved Vacated : Byte → Prop}
    (hshift : ∃ r, shift kind s.a s.c = (r, out) ∧ Moved r ∧ Vacated r) :
    ∃ r, shiftA kind s = .next { s with a := r, c := out, z := decide (r = 0), n := r.getLsbD 7 }
      ∧ Moved r ∧ Vacated r := by
  obtain ⟨r, hr, hbits⟩ := hshift
  refine ⟨r, ?_, hbits⟩
  rw [shiftA, hr, State.loadA_eq]
  rfl

/-- Settles O37: the bits of the four shift kinds, put into A by one operation. -/
theorem shiftsOfTheAccumulator : Obligations.ShiftsOfTheAccumulator := by
  unfold Obligations.ShiftsOfTheAccumulator
  intro s
  exact ⟨shiftA_of_shift (shift_lsr_bits s.a s.c), shiftA_of_shift (shift_asl_bits s.a s.c),
    shiftA_of_shift (shift_ror_bits s.a s.c), shiftA_of_shift (shift_rol_bits s.a s.c)⟩

/-- Settles O38: each loads its register with the successor or the predecessor of the byte modulo 256. -/
theorem incDecOfARegister : Obligations.IncDecOfARegister := by
  unfold Obligations.IncDecOfARegister
  intro s
  exact ⟨⟨_, congrArg Outcome.next (s.loadA_eq (s.a + 1)), byte_add_one_toNat s.a⟩,
    ⟨_, congrArg Outcome.next (s.loadA_eq (s.a - 1)), byte_sub_one_toNat s.a⟩,
    ⟨_, congrArg Outcome.next (s.loadX_eq (s.x + 1)), byte_add_one_toNat s.x⟩,
    ⟨_, congrArg Outcome.next (s.loadX_eq (s.x - 1)), byte_sub_one_toNat s.x⟩,
    ⟨_, congrArg Outcome.next (s.loadY_eq (s.y + 1)), byte_add_one_toNat s.y⟩,
    ⟨_, congrArg Outcome.next (s.loadY_eq (s.y - 1)), byte_sub_one_toNat s.y⟩⟩

/-- Settles O39: each is the write of its flag in the model itself. -/
theorem flagInstructionsWriteOneFlag : Obligations.FlagInstructionsWriteOneFlag := by
  unfold Obligations.FlagInstructionsWriteOneFlag
  exact fun s => ⟨rfl, rfl, rfl, rfl, rfl, rfl⟩

/-- Settles O40: each loads its destination with the source register. -/
theorem transfersCopyARegister : Obligations.TransfersCopyARegister := by
  unfold Obligations.TransfersCopyARegister
  intro s
  exact ⟨congrArg Outcome.next (s.loadX_eq s.a), congrArg Outcome.next (s.loadA_eq s.x),
    congrArg Outcome.next (s.loadY_eq s.a), congrArg Outcome.next (s.loadA_eq s.y),
    congrArg Outcome.next (s.loadY_eq s.x), congrArg Outcome.next (s.loadX_eq s.y)⟩

end Sys2Proof.Machine
end

section
/-! SUPPORT. The implicit instructions that halt or write whitespace (`45_implicit.md` R130, R160 to R167): what a slot without
behaviour answers, the byte a legal numbering gives a slot, and the theorems that settle
`HltHaltsAndChangesNothingElse`, `WhitespaceOutput` and `IllegalOpcodesHalt`. -/

namespace Sys2Proof.Machine

/-- A halt changes the run status and nothing else (`60_exceptions.md` R216). -/
theorem raise_eq (e : Cause) (s : State) : raise e s = .next { s with status := .halted e } := rfl

/-- Settles O34: HLT raises its cause. -/
theorem hltHaltsAndChangesNothingElse : Obligations.HltHaltsAndChangesNothingElse := by
  unfold Obligations.HltHaltsAndChangesNothingElse
  exact raise_eq .hlt

/-- Settles O44: each emits its one character. -/
theorem whitespaceOutput : Obligations.WhitespaceOutput := by
  unfold Obligations.WhitespaceOutput
  exact fun s => ⟨rfl, rfl, rfl⟩

/-- A slot with no executable behaviour halts with the byte that the numbering gives it. -/
theorem illegalSlot_eq (s : State) (op : ImplOp) :
    illegalSlot op s = .next { s with status := .halted (.illegalOpcode (implByte s.params.numbering op)) } :=
  raise_eq _ s

/-- The byte of a slot under a legal numbering is `0xC0` plus the slot's place in `IMPL_MAP` (`30_encoding.md` R55). -/
theorem implByte_of_wf {m : Numbering} (hm : m.wf = true) (slot : ImplOp) :
    ∃ (k : Nat) (h : k < 48), (implByte m slot).toNat = 0xC0 + k ∧ m.impl[k] = slot := by
  obtain ⟨-, ⟨-, hmem⟩, -⟩ := Numbering.wf_lists hm
  obtain ⟨hk, hslot⟩ := getElem_idxOf_of_mem m.impl slot (hmem slot)
  refine ⟨_, hk, ?_, hslot⟩
  rw [implByte, BitVec.toNat_ofNat]
  omega

/-- Settles O45: the 15 instructions are one operation on their slots, and the default bytes are read off the default map. -/
theorem illegalOpcodesHalt : Obligations.IllegalOpcodesHalt := by
  unfold Obligations.IllegalOpcodesHalt
  intro s byte halts
  have hslot := illegalSlot_eq s
  refine ⟨⟨hslot .rud, hslot .rsd, hslot .rch, hslot .rtx, hslot .illegalE5, hslot .illegalE6, hslot .illegalE7,
    hslot .illegalE8, hslot .illegalE9, hslot .illegalEA, hslot .illegalEB, hslot .illegalEC, hslot .illegalED,
    hslot .illegalEE, hslot .illegalEF⟩, fun hm slot => implByte_of_wf hm slot, fun hdefault => ?bytes⟩
  case bytes =>
    simp only [byte, hdefault]
    decide

end Sys2Proof.Machine
end

section
/-! SUPPORT. The branch class (`46_branch.md`): what a branch answers on either side of the bounds check of its target, what BSR
does by the room on the stack, and the theorems that settle `OnlyJumpsLeaveTheSequence`, `BsrPushesTheReturnAddress`,
`BranchTargetOutOfBoundsHalts`, `BsrWithoutRoomHalts` and `BranchesSetOnlyThePc`. -/

namespace Sys2Proof.Machine

open Host (Outcome)

/-! ### The sequence -/

/-- Only the effects of a branch and of RTS write the program counter. -/
theorem Effect.pc {i : Instr} {s t : State} (he : Effect i s t) (hrts : i ≠ .rts) (hbranch : i.form.opClass ≠ .branch) :
    t.pc = s.pc := by
  cases he with
  | jump _ _ branch | call _ _ _ _ branch => exact absurd branch hbranch
  | ret _ _ _ rts | retShort _ rts | retOut _ _ rts => exact absurd rts hrts
  | halt | regs | emit | store | pushed | pulled => rfl

/-- Settles O17: every answer of `exec` is one of the effects, halts included. -/
theorem onlyJumpsLeaveTheSequence : Obligations.OnlyJumpsLeaveTheSequence := by
  unfold Obligations.OnlyJumpsLeaveTheSequence
  exact fun _ _ _ h => (exec_next h).pc

/-! ### The check of the target -/

theorem withTarget_of_inBounds {g : Target} {s : State} (h : s.mem.inBounds (resolveTarget g s) = true)
    (k : Addr → Outcome State Fault Refusal) : withTarget g s k = k (resolveTarget g s) := if_pos h

theorem withTarget_of_outOfBounds {g : Target} {s : State} (h : s.mem.inBounds (resolveTarget g s) = false)
    (k : Addr → Outcome State Fault Refusal) : withTarget g s k = raise (.outOfBounds (resolveTarget g s).toNat) s :=
  if_neg (by simp [h])

theorem branchIf_eq_withTarget (taken : Bool) (g : Target) (s : State) :
    branchIf taken g s = withTarget g s fun a => .next (if taken then s.withPc a else s) := rfl

/-- Every branch type, whatever its condition, does its work behind the one check of its target. -/
theorem exec_branch (op : BrOp) (g : Target) (s : State) : ∃ k, exec (op.instr g) s = withTarget g s k := by
  cases op with
  | bsr => unfold BrOp.instr exec execBsr; exact ⟨_, rfl⟩
  | bra | bne | beq | bpl | bmi | bcc | bcs => exact ⟨_, branchIf_eq_withTarget _ g s⟩

/-- Settles O47: the check comes before the condition is looked at and before BSR pushes. -/
theorem branchTargetOutOfBoundsHalts : Obligations.BranchTargetOutOfBoundsHalts := by
  unfold Obligations.BranchTargetOutOfBoundsHalts
  intro op g s h
  obtain ⟨k, hk⟩ := exec_branch op g s
  rw [hk, withTarget_of_outOfBounds h, raise_eq]

/-! ### Branches on a condition -/

theorem branchIf_of_inBounds {g : Target} {s : State} (h : s.mem.inBounds (resolveTarget g s) = true) (taken : Bool) :
    branchIf taken g s = .next { s with pc := if taken then resolveTarget g s else s.pc } := by
  rw [branchIf, withTarget_of_inBounds h]
  cases taken <;> rfl

/-- A branch on a clear flag. -/
theorem branchIf_not_of_inBounds {g : Target} {s : State} (h : s.mem.inBounds (resolveTarget g s) = true) (flag : Bool) :
    branchIf (!flag) g s = .next { s with pc := if flag then s.pc else resolveTarget g s } := by
  rw [branchIf_of_inBounds h]
  cases flag <;> rfl

/-- Settles O50: the seven are one operation, on a constant, on a flag, or on its complement. -/
theorem branchesSetOnlyThePc : Obligations.BranchesSetOnlyThePc := by
  unfold Obligations.BranchesSetOnlyThePc
  rintro g s p rfl h
  exact ⟨branchIf_of_inBounds h true,
    branchIf_not_of_inBounds h s.z, branchIf_of_inBounds h s.z,
    branchIf_not_of_inBounds h s.n, branchIf_of_inBounds h s.n,
    branchIf_not_of_inBounds h s.c, branchIf_of_inBounds h s.c⟩

/-! ### BSR -/

/-- Room for one byte is too little: the check for both comes before the first push (spec decision D19). -/
theorem execBsr_of_noRoom {g : Target} {s : State} (h : 254 < s.sp) (hin : s.mem.inBounds (resolveTarget g s) = true) :
    execBsr g s = raise .stackOverflow s := by
  rw [execBsr, withTarget_of_inBounds hin, if_pos h]

/-- Settles O49: 255 and 256 are the two values that leave no room for both bytes. -/
theorem bsrWithoutRoomHalts : Obligations.BsrWithoutRoomHalts := by
  unfold Obligations.BsrWithoutRoomHalts
  intro g s hsp hin
  exact (execBsr_of_noRoom (by omega) hin).trans (raise_eq _ s)

theorem lowByte_toNat (a : Addr) : (lowByte a).toNat = a.toNat % 256 := by
  have := toNat_eq_high_low a
  omega

theorem highByte_toNat (a : Addr) : (highByte a).toNat = a.toNat / 256 := by
  have := toNat_eq_high_low a
  omega

/-- Settles O48: the two pushed entries are read back past each other, and no other entry is written. -/
theorem bsrPushesTheReturnAddress : Obligations.BsrPushesTheReturnAddress := by
  unfold Obligations.BsrPushesTheReturnAddress
  intro g s h hin
  have hlow : s.sp < 256 := by omega
  have hhigh : s.sp + 1 < 256 := by omega
  refine ⟨_, lowByte s.pc, highByte s.pc, execBsr_of_room h hin, lowByte_toNat s.pc, highByte_toNat s.pc, rfl, rfl,
    ?low, ?high, fun j hjlow hjhigh => ?others, rfl⟩
  case low => exact (Vector.getElem?_set_ne hhigh (Nat.succ_ne_self s.sp)).trans (Vector.getElem?_set_self hlow)
  case high => exact Vector.getElem?_set_self hhigh
  case others => exact (Vector.getElem?_set_ne hhigh hjhigh.symm).trans (Vector.getElem?_set_ne hlow hjlow.symm)

end Sys2Proof.Machine
end

section
/-! SUPPORT. What the translator records over a step (`50_translator.md` R191 to R197): both shadows at the opcode fetch, the
output shadow alone at a store; and the theorems that settle `InputShadowChangesOnlyAtTheFetch`,
`IdentityTranslatorIsTransparent`, `OpcodeFetchEventRecordsBothShadows` and `AttachmentClonesLiveMemory`. -/

namespace Sys2Proof.Machine

/-! ### The opcode-fetch event -/

theorem State.translate_of_translator {s : State} {k : Translator} (h : s.translator = some k) (raw : Byte) :
    s.translate raw = k.map[raw.toNat] := by
  rw [State.translate_eq, h]
  rfl

theorem State.noteOpcode_of_translator {s : State} {k : Translator} (h : s.translator = some k) (a : Addr) (op : Byte) :
    s.noteOpcode a op = { s with translator := some (k.onOpcodeFetch a op) } := by
  rw [State.noteOpcode, h]
  rfl

theorem Memory.inBounds_eq_of_size {m m' : Memory} (h : m.size = m'.size) (a : Addr) : m.inBounds a = m'.inBounds a := by
  rw [Memory.inBounds, Memory.inBounds, h]

/-- Both shadows reach as far as live memory (`50_translator.md` R191). -/
theorem Translator.inBounds_of_fits {k : Translator} {m : Memory} (h : k.fits m = true) (a : Addr) :
    k.input.inBounds a = m.inBounds a ∧ k.output.inBounds a = m.inBounds a := by
  obtain ⟨_, _, hinput, houtput⟩ := (k.fits_iff m).mp h
  exact ⟨Memory.inBounds_eq_of_size hinput a, Memory.inBounds_eq_of_size houtput a⟩

/-- The event of R193 at an address in bounds: both shadows take the mapped byte there. -/
theorem Translator.read_onOpcodeFetch_same {k : Translator} {m : Memory} {a : Addr} (hfits : k.fits m = true)
    (ha : m.inBounds a = true) (op : Byte) :
    (k.onOpcodeFetch a op).input.read a = op ∧ (k.onOpcodeFetch a op).output.read a = op := by
  obtain ⟨hinput, houtput⟩ := Translator.inBounds_of_fits hfits a
  exact ⟨k.input.read_store_same a op (hinput.trans ha), k.output.read_store_same a op (houtput.trans ha)⟩

theorem Translator.read_onOpcodeFetch_other (k : Translator) {a b : Addr} (op : Byte) (h : b ≠ a) :
    (k.onOpcodeFetch a op).input.read b = k.input.read b ∧ (k.onOpcodeFetch a op).output.read b = k.output.read b :=
  ⟨k.input.read_store_other op h, k.output.read_store_other op h⟩

/-- What the translator holds once the opcode byte at `pc` is fetched: the byte, mapped, in both shadows. -/
def Translator.afterOpcodeFetch (k : Translator) (s : State) : Translator :=
  k.onOpcodeFetch s.pc k.map[(s.mem.read s.pc).toNat]

/-- The opcode fetch under a translator: of the state, only `pc` and the shadows change. -/
theorem fetchOpcode_of_translator {s : State} {k : Translator} (hk : s.translator = some k)
    (hpc : s.mem.inBounds s.pc = true) :
    fetchOpcode s = .ok (k.map[(s.mem.read s.pc).toNat],
      { s with pc := s.pc + 1, translator := some (k.afterOpcodeFetch s) }) := by
  refine (fetchOpcode_ok_iff _ _ _).mpr ⟨hpc, (State.translate_of_translator hk _).symm, ?_⟩
  rw [State.translate_of_translator hk, State.noteOpcode_of_translator (s := s.withPc (s.pc + 1)) hk]
  rfl

/-- A whole instruction fetched under a translator: its operand bytes are the live ones, and their fetches record nothing. -/
theorem fetchInstr_ok_of_translator {s t : State} {k : Translator} {i : Instr} (hk : s.translator = some k)
    (hf : fetchInstr s = .ok (i, t)) :
    i.form = formOf s.params.numbering k.map[(s.mem.read s.pc).toNat] (s.mem.read (s.pc + 1)) (s.mem.read (s.pc + 2))
      ∧ t = { s with pc := s.pc + BitVec.ofNat 16 (opLength k.map[(s.mem.read s.pc).toNat]),
                     translator := some (k.afterOpcodeFetch s) } := by
  obtain ⟨b1, b2, rfl, rfl, -, hb1, hb2⟩ := fetchInstr_ok hf
  rw [State.translate_of_translator hk] at hb1 hb2 ⊢
  rw [State.noteOpcode_of_translator hk]
  exact ⟨(Form.instr_form _).trans (formOf_congr _ _ hb1 hb2), rfl⟩

/-- A fetch cut off under a translator after its opcode byte: the record of that byte stands. -/
theorem fetchInstr_error_of_translator {s t : State} {k : Translator} (hk : s.translator = some k)
    (hpc : s.mem.inBounds s.pc = true) (hf : fetchInstr s = .error t) :
    t = { s with pc := t.pc, status := t.status, translator := some (k.afterOpcodeFetch s) } := by
  obtain ⟨hout, -⟩ | ⟨j, -, -, -, -, rfl⟩ := fetchInstr_error hf
  · exact absurd hpc (by simp [hout])
  · rw [State.translate_of_translator hk, State.noteOpcode_of_translator hk]
    rfl

/-- Settles O52: the opcode fetch records the mapped byte, and whatever the rest of the fetch answers keeps that record. -/
theorem opcodeFetchEventRecordsBothShadows : Obligations.OpcodeFetchEventRecordsBothShadows := by
  unfold Obligations.OpcodeFetchEventRecordsBothShadows
  intro s k hk hfits hpc
  obtain ⟨hinput, houtput⟩ := Translator.read_onOpcodeFetch_same hfits hpc k.map[(s.mem.read s.pc).toNat]
  exact ⟨k.afterOpcodeFetch s, _, rfl, fetchOpcode_of_translator hk hpc, rfl, hinput, houtput,
    fun _ hb => k.read_onOpcodeFetch_other _ hb, fun _ _ hf => fetchInstr_ok_of_translator hk hf,
    fun _ hf => ⟨fetchInstr_error_of_translator hk hpc hf, fun hr => step_of_fetch_error hr hf⟩⟩

/-! ### The input shadow over a step -/

theorem fetchInstr_ok_pc_inBounds {s t : State} {i : Instr} (hf : fetchInstr s = .ok (i, t)) :
    s.mem.inBounds s.pc = true := by
  obtain ⟨_, _, _, _, hin, _, _⟩ := fetchInstr_ok hf
  simpa using hin 0 s.fetchLength_pos

/-- The execution phase under a translator: no instruction changes the table or the input shadow (`50_translator.md` R194,
R196), since only a store reaches the translator, and its event writes the output shadow. -/
theorem Effect.keeps_input {i : Instr} {s t : State} {k : Translator} (he : Effect i s t) (hk : s.translator = some k) :
    ∃ l, t.translator = some l ∧ l.map = k.map ∧ l.input = k.input := by
  cases he with
  | store ea v => exact ⟨k.onDataWrite ea v, congrArg (Option.map _) hk, rfl, rfl⟩
  | _ => exact ⟨k, hk, rfl, rfl⟩

/-- What a step leaves of the table and the input shadow: all of the translator when there is no opcode byte to fetch, and
otherwise what the opcode fetch left. -/
theorem step_input {s t : State} {k : Translator} (hk : s.translator = some k) (hstep : step s = .next t) :
    (s.mem.inBounds s.pc = false ∧ t.translator = some k)
      ∨ (s.mem.inBounds s.pc = true
          ∧ ∃ l, t.translator = some l ∧ l.map = k.map ∧ l.input = (k.afterOpcodeFetch s).input) := by
  obtain ⟨_, hf | ⟨i, s1, hf, hx⟩⟩ := step_next hstep
  · by_cases hpc : s.mem.inBounds s.pc = true
    · exact .inr ⟨hpc, _, congrArg State.translator (fetchInstr_error_of_translator hk hpc hf), rfl, rfl⟩
    · have hout : s.mem.inBounds s.pc = false := by simpa using hpc
      rw [fetchInstr_of_firstMissing (s.firstMissing_zero_iff.mpr hout)] at hf
      cases hf
      exact .inl ⟨hout, hk⟩
  · obtain ⟨-, rfl⟩ := fetchInstr_ok_of_translator hk hf
    exact .inr ⟨fetchInstr_ok_pc_inBounds hf, (exec_next hx).keeps_input rfl⟩

/-- Settles O53: the opcode fetch writes the input shadow at `pc`, and nothing after it in the step does. -/
theorem inputShadowChangesOnlyAtTheFetch : Obligations.InputShadowChangesOnlyAtTheFetch := by
  unfold Obligations.InputShadowChangesOnlyAtTheFetch
  intro s t k hinv hk hstep
  obtain ⟨_, _, htranslator, _, _⟩ := (State.inv_iff s).mp hinv
  have hfits : k.fits s.mem = true := htranslator k hk
  obtain ⟨hout, ht⟩ | ⟨hpc, l, ht, hmap, hinput⟩ := step_input hk hstep
  · exact ⟨k, ht, rfl, fun hpc => absurd hpc (by simp [hout]), fun _ => rfl, fun _ _ => rfl⟩
  · refine ⟨l, ht, hmap, fun _ => ?fetched, fun hout => absurd hpc (by simp [hout]), fun b hb => ?other⟩
    case fetched => rw [hinput]; exact (Translator.read_onOpcodeFetch_same hfits hpc _).1
    case other => rw [hinput]; exact (k.read_onOpcodeFetch_other _ hb).1

/-! ### Transparency and attachment -/

/-- Settles O54: no observer is another observer that maps every byte alike, and a step attaches none. -/
theorem identityTranslatorIsTransparent : Obligations.IdentityTranslatorIsTransparent := by
  unfold Obligations.IdentityTranslatorIsTransparent
  intro s t k hk hid hstep
  have htranslate : ∀ raw, (s.withTranslator none).translate raw = s.translate raw := fun raw => by
    rw [State.translate_of_translator hk, hid]
    rfl
  obtain ⟨tr, hsame, heq⟩ := step_withTranslator s none htranslate
  obtain rfl : tr = none := Option.map_eq_none_iff.mp hsame
  rw [hstep] at heq
  exact heq

/-- Settles O59: attachment looks only at whether a translator is there already. -/
theorem attachmentClonesLiveMemory : Obligations.AttachmentClonesLiveMemory := by
  unfold Obligations.AttachmentClonesLiveMemory
  intro table s
  refine ⟨fun hnone => (State.attach_eq_some_iff table s _).mpr ⟨hnone, rfl⟩, fun hsome => ?_⟩
  rw [Option.eq_none_iff_forall_ne_some]
  exact fun t ht => hsome ((State.attach_eq_some_iff table s t).mp ht).1

end Sys2Proof.Machine
end

section
/-! SUPPORT. The remap table (`50_translator.md` R198): what a list of pairs makes of the identity table, which token lists are
malformed, and the theorem that settles `LoadedTableTakesTheLastPair`. -/

namespace Sys2Proof.Machine

/-! ### The table of a list of pairs -/

@[simp] theorem getElem_identityTable (b : Byte) : identityTable[b.toNat] = b := by simp [identityTable]

/-- One more pair in text order. -/
theorem tableOfPairs_concat (pairs : List (Byte × Byte)) (p : Byte × Byte) :
    tableOfPairs (pairs ++ [p]) = (tableOfPairs pairs).set p.1.toNat p.2 := by
  rw [tableOfPairs, List.foldl_concat]
  rfl

/-- The last pair with a given source wins: by induction on the pairs, the last one split off. -/
theorem getElem_tableOfPairs (pairs : List (Byte × Byte)) (b : Byte) :
    (tableOfPairs pairs)[b.toNat] = ((pairs.reverse.find? fun p => p.1 == b).map Prod.snd).getD b := by
  induction pairs using List.reverseRecOn with
  | nil => exact getElem_identityTable b
  | append_singleton pairs p ih =>
    simp only [tableOfPairs_concat, List.reverse_concat]
    by_cases hb : p.1 = b
    · subst hb
      simp
    · have hne : p.1.toNat ≠ b.toNat := fun h => hb (BitVec.eq_of_toNat_eq h)
      rw [Vector.getElem_set_ne _ _ hne, ih, List.find?_cons_of_neg (by simpa using hb)]

/-! ### Tokens -/

/-- The tokens that a list of pairs is written as. -/
def tokensOfPairs (pairs : List (Byte × Byte)) : List (Option Nat) := pairs.flatMap fun p => [some p.1.toNat, some p.2.toNat]

theorem tokensOfPairs_cons (p : Byte × Byte) (pairs : List (Byte × Byte)) :
    tokensOfPairs (p :: pairs) = some p.1.toNat :: some p.2.toNat :: tokensOfPairs pairs := rfl

theorem pairsOfTokens_tokensOfPairs (pairs : List (Byte × Byte)) : pairsOfTokens (tokensOfPairs pairs) = some pairs := by
  induction pairs with
  | nil => rfl
  | cons p pairs ih =>
    have hrange : p.1.toNat ≤ 0xFF ∧ p.2.toNat ≤ 0xFF := ⟨Nat.le_of_lt_succ p.1.isLt, Nat.le_of_lt_succ p.2.isLt⟩
    rw [tokensOfPairs_cons, pairsOfTokens, if_pos hrange, ih]
    simp

/-- A token that gives no byte: unparsable, or above 0xFF. -/
def BadToken (o : Option Nat) : Prop := ∀ n, o = some n → 0xFF < n

theorem badToken_none : BadToken none := fun _ h => nomatch h

theorem badToken_some_iff (n : Nat) : BadToken (some n) ↔ 0xFF < n := by simp [BadToken]

theorem exists_badToken_iff (tokens : List (Option Nat)) :
    (∃ o ∈ tokens, BadToken o) ↔ none ∈ tokens ∨ ∃ n, some n ∈ tokens ∧ 0xFF < n := by
  simp [Option.exists, BadToken]

/-- A token list is malformed exactly when its tokens do not pair up or one of them gives no byte. -/
theorem pairsOfTokens_eq_none_iff (tokens : List (Option Nat)) :
    pairsOfTokens tokens = none ↔ tokens.length % 2 = 1 ∨ ∃ o ∈ tokens, BadToken o := by
  induction tokens using pairsOfTokens.induct with
  | case1 => simp [pairsOfTokens]
  | case2 f t rest hrange ih =>
    have hf : ¬BadToken (some f) := by rw [badToken_some_iff]; omega
    have ht : ¬BadToken (some t) := by rw [badToken_some_iff]; omega
    rw [pairsOfTokens, if_pos hrange, Option.map_eq_none_iff, ih]
    simp [hf, ht, Nat.add_mod_right rest.length 2]
  | case3 f t rest hrange =>
    have hbad : BadToken (some f) ∨ BadToken (some t) := by simp only [badToken_some_iff]; omega
    rw [pairsOfTokens, if_neg hrange]
    exact iff_of_true rfl (.inr (by simpa using or_assoc.mp (.inl hbad)))
  | case4 tokens hnil hpair =>
    match tokens with
    | [] => exact absurd rfl hnil
    | [o] => cases o <;> simp [pairsOfTokens]
    | none :: o :: rest => simp [pairsOfTokens, badToken_none]
    | some f :: none :: rest => simp [pairsOfTokens, badToken_none]
    | some f :: some t :: rest => exact absurd rfl (hpair f t rest)

/-- Loading signals an error exactly for a malformed list, and then leaves the identity. -/
theorem loadTable_error_iff (tokens : List (Option Nat)) : (loadTable tokens).2 = true ↔ pairsOfTokens tokens = none := by
  unfold loadTable
  cases pairsOfTokens tokens <;> simp

theorem loadTable_of_pairs {tokens : List (Option Nat)} {pairs : List (Byte × Byte)} (h : pairsOfTokens tokens = some pairs) :
    loadTable tokens = (tableOfPairs pairs, false) := by
  rw [loadTable, h]

theorem loadTable_of_malformed {tokens : List (Option Nat)} (h : pairsOfTokens tokens = none) :
    loadTable tokens = (identityTable, true) := by
  rw [loadTable, h]

/-- Settles O57: the table of the pairs, the pairs of their own tokens, and the token lists that have no pairs. -/
theorem loadedTableTakesTheLastPair : Obligations.LoadedTableTakesTheLastPair := by
  unfold Obligations.LoadedTableTakesTheLastPair
  refine ⟨getElem_tableOfPairs, fun pairs => loadTable_of_pairs (pairsOfTokens_tokensOfPairs pairs),
    fun tokens => ⟨?malformed, fun herror b => ?identity⟩⟩
  case malformed => rw [loadTable_error_iff, pairsOfTokens_eq_none_iff, exists_badToken_iff]
  case identity =>
    simp only [loadTable_of_malformed ((loadTable_error_iff tokens).mp herror)]
    exact getElem_identityTable b

end Sys2Proof.Machine
end

section
/-! SUPPORT. A step that halts (`60_exceptions.md` R210 to R216): which effects of an instruction halt, the whole state they
leave, the byte that an `IllegalOpcode` cause records, and the theorems that settle `HaltingStepIsAtomic` and
`IllegalOpcodeRecordsTheTranslatedByte`. -/

namespace Sys2Proof.Machine

/-! ### The effects that halt -/

/-- The pops that an RTS has made when it halts with a cause (`45_implicit.md` R131; spec decision D17): from `sp` entries
to `left` entries. -/
def RtsPops (e : Cause) (sp left : Nat) : Prop :=
  (e = .stackUnderflow ∧ sp = 1 ∧ left = 0) ∨ ∃ a, e = .outOfBounds a ∧ 2 ≤ sp ∧ left = sp - 2

/-- An instruction that halts does nothing else, unless it is an RTS, which keeps the pops it made. -/
theorem Effect.of_halted {i : Instr} {s t : State} {e : Cause} (he : Effect i s t) (hr : s.status = .running)
    (ht : t.status = .halted e) :
    t = s.halt e ∨ ∃ left, i = .rts ∧ RtsPops e s.sp left ∧ t = State.halt e { s with sp := left } := by
  cases he with
  | halt e' _ =>
    cases ht
    exact .inl rfl
  | retShort live rts =>
    cases ht
    exact .inr ⟨0, rts, .inl ⟨rfl, live, rfl⟩, rfl⟩
  | retOut a live rts =>
    cases ht
    exact .inr ⟨s.sp - 2, rts, .inr ⟨a, rfl, live, rfl⟩, rfl⟩
  | regs | emit | store | pushed | pulled | jump | call | ret => exact absurd (hr.symm.trans ht) Status.noConfusion

/-- Only a slot of the implicit class raises `IllegalOpcode`, and it records the byte that the numbering gives it. -/
theorem Effect.of_illegalOpcode {i : Instr} {s t : State} {b : Byte} (he : Effect i s t) (hr : s.status = .running)
    (ht : t.status = .halted (.illegalOpcode b)) :
    ∃ slot : ImplOp, i = slot.instr ∧ b = implByte s.params.numbering slot := by
  cases he with
  | halt e illegal =>
    cases ht
    exact illegal b rfl
  | retShort | retOut => cases ht
  | regs | emit | store | pushed | pulled | jump | call | ret => exact absurd (hr.symm.trans ht) Status.noConfusion

/-! ### The state a halting step leaves -/

/-- The state with the opcode fetch recorded, when there is an opcode byte to fetch (`50_translator.md` R193). -/
def State.afterOpcodeFetch (s : State) : State :=
  if s.mem.inBounds s.pc then s.noteOpcode s.pc (s.translate (s.mem.read s.pc)) else s

theorem State.afterOpcodeFetch_of_inBounds {s : State} (h : s.mem.inBounds s.pc = true) :
    s.afterOpcodeFetch = s.noteOpcode s.pc (s.translate (s.mem.read s.pc)) := if_pos h

theorem State.afterOpcodeFetch_of_outOfBounds {s : State} (h : s.mem.inBounds s.pc = false) : s.afterOpcodeFetch = s :=
  if_neg (by simp [h])

/-- The opcode fetch is recorded in the translator and nowhere else. -/
theorem State.afterOpcodeFetch_eq (s : State) :
    s.afterOpcodeFetch =
      { s with
        translator := if s.mem.inBounds s.pc then (s.noteOpcode s.pc (s.translate (s.mem.read s.pc))).translator
          else s.translator } := by
  by_cases h : s.mem.inBounds s.pc = true
  · rw [State.afterOpcodeFetch_of_inBounds h, if_pos h]
    rfl
  · rw [State.afterOpcodeFetch, if_neg h, if_neg h]

@[simp] theorem State.afterOpcodeFetch_sp (s : State) : s.afterOpcodeFetch.sp = s.sp := by rw [State.afterOpcodeFetch_eq]

@[simp] theorem State.afterOpcodeFetch_status (s : State) : s.afterOpcodeFetch.status = s.status := by
  rw [State.afterOpcodeFetch_eq]

theorem fetchInstr_ok_eq {s t : State} {i : Instr} (hf : fetchInstr s = .ok (i, t)) :
    t = s.afterOpcodeFetch.withPc t.pc := by
  rw [State.afterOpcodeFetch_of_inBounds (fetchInstr_ok_pc_inBounds hf)]
  obtain ⟨_, _, _, rfl, _⟩ := fetchInstr_ok hf
  rfl

/-- A fetch that is cut off raises `OutOfBounds`, with the opcode fetch recorded if it took place. -/
theorem fetchInstr_error_eq {s t : State} (hf : fetchInstr s = .error t) :
    ∃ a, t = (s.afterOpcodeFetch.withPc t.pc).halt (.outOfBounds a) := by
  obtain ⟨hout, rfl⟩ | ⟨k, hpos, _, hin, _, rfl⟩ := fetchInstr_error hf
  · rw [State.afterOpcodeFetch_of_outOfBounds hout]
    exact ⟨_, rfl⟩
  · rw [State.afterOpcodeFetch_of_inBounds (by simpa using hin 0 hpos)]
    exact ⟨_, rfl⟩

/-- A halting step leaves the state it began in with the cause and the opcode fetch recorded, but for `pc` and for the pops
of an RTS. -/
theorem step_halted {s t : State} {e : Cause} (hstep : step s = .next t) (ht : t.status = .halted e) :
    t = State.halt e { s.afterOpcodeFetch with pc := t.pc, sp := t.sp }
      ∧ (t.sp = s.sp ∨ (∃ s1, fetchInstr s = .ok (.rts, s1)) ∧ RtsPops e s.sp t.sp) := by
  obtain ⟨hr, hf | ⟨i, s1, hf, hx⟩⟩ := step_next hstep
  · obtain ⟨a, ha⟩ := fetchInstr_error_eq hf
    rw [ha] at ht ⊢
    cases ht
    exact ⟨rfl, .inl s.afterOpcodeFetch_sp⟩
  · have hs1 := fetchInstr_ok_eq hf
    generalize s1.pc = p at hs1
    subst hs1
    obtain rfl | ⟨left, rfl, hpops, rfl⟩ := (exec_next hx).of_halted (s.afterOpcodeFetch_status.trans hr) ht
    · exact ⟨rfl, .inl s.afterOpcodeFetch_sp⟩
    · exact ⟨rfl, .inr ⟨⟨_, hf⟩, s.afterOpcodeFetch_sp ▸ hpops⟩⟩

/-- Settles O15: field by field from the one equation for a halting step. -/
theorem haltingStepIsAtomic : Obligations.HaltingStepIsAtomic := by
  unfold Obligations.HaltingStepIsAtomic
  intro s t e hstep ht
  obtain ⟨heq, hsp⟩ := step_halted hstep ht
  rw [State.afterOpcodeFetch_eq] at heq
  generalize t.pc = p, t.sp = n at heq hsp
  subst heq
  exact ⟨rfl, rfl, rfl, rfl, rfl, rfl, rfl, rfl, rfl, rfl, hsp, rfl⟩

/-! ### The byte of an illegal opcode -/

/-- Under a legal numbering, the byte that decodes to a slot of the implicit class is the byte of the slot
(`30_encoding.md` R51, R55). -/
theorem implByte_of_formOf {m : Numbering} (hm : m.wf = true) {op b1 b2 : Byte} {slot : ImplOp}
    (h : formOf m op b1 b2 = .impl slot) : implByte m slot = op ∧ classOf op = .implicit := by
  have hclass : classOf op = .implicit := by rw [← opClass_formOf m op b1 b2, h]; rfl
  have hlen : opLength op = 1 := opLength_of_implicit hclass
  have hform : formOfBytes m op [] = .impl slot :=
    (formOf_congr m op (fun h2 => by omega) (fun h3 => by omega)).trans h
  have henc := encode_formOfBytes hm (op := op) (args := []) hlen
  rw [hform] at henc
  exact ⟨List.head_eq_of_cons_eq henc, hclass⟩

/-- Settles O46: the slot that halts is the one that the translated byte selects, so its byte is that byte. -/
theorem illegalOpcodeRecordsTheTranslatedByte : Obligations.IllegalOpcodeRecordsTheTranslatedByte := by
  unfold Obligations.IllegalOpcodeRecordsTheTranslatedByte
  intro s t b hm hstep ht
  obtain ⟨hr, hf | ⟨i, s1, hf, hx⟩⟩ := step_next hstep
  · obtain ⟨a, ha⟩ := fetchInstr_error_eq hf
    rw [ha] at ht
    cases ht
  · obtain ⟨b1, b2, hi, rfl, -⟩ := fetchInstr_ok hf
    obtain ⟨slot, hslot, rfl⟩ := (exec_next hx).of_illegalOpcode hr ht
    have hform : formOf s.params.numbering (s.translate (s.mem.read s.pc)) b1 b2 = .impl slot := by
      rw [← Form.instr_form (formOf _ _ _ _), ← build, ← hi, hslot, ImplOp.instr_form]
    obtain ⟨hbyte, hclass⟩ := implByte_of_formOf hm hform
    obtain ⟨hlow, hhigh⟩ := (classOf_eq_implicit_iff _).mp hclass
    exact ⟨hbyte, hbyte.symm ▸ hlow, hbyte.symm ▸ hhigh⟩

end Sys2Proof.Machine
end

section
/-! SUPPORT. The Carry of a compare (`70_reset_and_hazards.md` R239, `90_conflicts.md` C13), and the theorem that settles
`CompareCarryQuirk`. -/

namespace Sys2Proof.Machine

/-- The difference modulo 256 is below the register exactly when something is subtracted and nothing is borrowed. -/
theorem compare_c_iff (reg m : Byte) (s : State) : (compare reg m s).c = true ↔ m ≠ 0 ∧ m.toNat ≤ reg.toNat := by
  have hreg := reg.isLt
  have hm := m.isLt
  have hzero : m = 0 ↔ m.toNat = 0 := BitVec.toNat_inj.symm
  rw [compare_eq_difference, decide_eq_true_iff, Ne, hzero]
  omega

theorem reading_compare_c {o : Operand} {s : State} {ea : Addr} {m : Byte} (h : effectiveAddr o s = .ok ea)
    (hm : s.mem.read ea = m) (reg : Byte) :
    ∃ t, reading o s (compare reg · s) = .next t ∧ (t.c = true ↔ m ≠ 0 ∧ m.toNat ≤ reg.toNat) := by
  subst hm
  exact ⟨_, reading_of_ok h _, compare_c_iff reg _ s⟩

/-- Settles O30: the three compares are one reading operation, on A, X and Y. -/
theorem compareCarryQuirk : Obligations.CompareCarryQuirk := by
  unfold Obligations.CompareCarryQuirk
  intro o s ea m hea hm
  exact ⟨reading_compare_c hea hm s.a, reading_compare_c hea hm s.x, reading_compare_c hea hm s.y⟩

end Sys2Proof.Machine
end

section
/-! SUPPORT. Creation of a CPU (`51_interfaces.md` R201, `10_state.md` R24), and the theorem that settles
`CreationSucceedsExactlyInBounds`. -/

namespace Sys2Proof.Machine

/-- A created state meets the machine invariant: `pc0` is the address of a byte, and the arguments are legal. -/
theorem Launch.create_inv {l : Launch} {s : State} (h : l.create = some s) : s.inv = true := by
  obtain ⟨hlegal, hpc, rfl⟩ := (l.create_eq_some_iff s).mp h
  obtain ⟨hmem, hnumbering⟩ := l.legal_iff.mp hlegal
  exact (State.inv_iff _).mpr ⟨Nat.zero_le 256, hmem, fun _ hk => (nomatch hk), Memory.toNat_le_limit hpc, hnumbering⟩

/-- Settles O58: of the two conditions of creation only the bounds of `pc0` is left for legal arguments, and the full shape
has every address in bounds. -/
theorem creationSucceedsExactlyInBounds : Obligations.CreationSucceedsExactlyInBounds := by
  unfold Obligations.CreationSucceedsExactlyInBounds
  intro l
  have hnone : l.legal = true → (l.create = none ↔ l.mem.inBounds l.pc0 = false) := fun hlegal => by
    simp [l.create_eq_none_iff, hlegal]
  refine ⟨hnone, fun hlegal hfull => ?full, fun hillegal => l.create_eq_none_iff.mpr (.inl hillegal), fun s hs => ?created⟩
  case full =>
    rw [Ne, hnone hlegal, Memory.inBounds_of_fullShape l.pc0 hfull]
    nofun
  case created =>
    have hinv := Launch.create_inv hs
    obtain ⟨-, -, rfl⟩ := (l.create_eq_some_iff s).mp hs
    exact ⟨rfl, rfl, rfl, rfl, rfl, rfl, rfl, rfl, rfl, rfl, rfl, rfl, rfl, hinv⟩

end Sys2Proof.Machine
end
